-- ==== Sys2Proof/Word.lean ====
section
/-! DEFINITION. The word types of the machine (00_scope.md R6, R8): bytes, 16-bit words, 12-bit addresses, register
indices. All values are unsigned. -/

namespace Sys2Proof

/-- An 8-bit value: a general register, a timer, a byte of memory, a pixel. -/
abbrev Byte := BitVec 8

/-- A 16-bit value: an opcode, pc, I, a stack entry. -/
abbrev Word := BitVec 16

/-- The 12-bit immediate `nnn` (30_encoding.md R72). -/
abbrev Addr := BitVec 12

/-- A register index 0..15, the 4-bit field X or Y; every index names a register (10_state.md R21). -/
abbrev Reg := Fin 16

/-- VF, register 15, "doubles as the carry/borrow/collision flag" (10_state.md R22). -/
abbrev VF : Reg := 15

end Sys2Proof
end

