-- ==== Sys2Proof/Syntax.lean ====
section
/-! DEFINITION. The 34 instructions (30_encoding.md R81), one constructor per row of spec/opcode_table.json, in the
table's order, with the operand fields of R72-R74. Words of no row are not instructions: the decoder names them
`Decoded.unknown` (R82, R87). -/

namespace Sys2Proof

inductive Instr where
  /-- 00E0 `CLS` (R101). -/
  | cls
  /-- 00EE `RET` (R121). -/
  | ret
  /-- 1NNN `JP addr` (R122). -/
  | jp (nnn : Addr)
  /-- 2NNN `CALL addr` (R123). -/
  | call (nnn : Addr)
  /-- 3XNN `SE Vx, #nn` (R124). -/
  | seImm (x : Reg) (nn : Byte)
  /-- 4XNN `SNE Vx, #nn` (R125). -/
  | sneImm (x : Reg) (nn : Byte)
  /-- 5XY0 `SE Vx, Vy` (R126). -/
  | seReg (x y : Reg)
  /-- 6XNN `LD Vx, #nn` (R151). -/
  | ldImm (x : Reg) (nn : Byte)
  /-- 7XNN `ADD Vx, #nn` (R152). -/
  | addImm (x : Reg) (nn : Byte)
  /-- 8XY0 `LD Vx, Vy` (R153). -/
  | ldReg (x y : Reg)
  /-- 8XY1 `OR Vx, Vy` (R154). -/
  | orReg (x y : Reg)
  /-- 8XY2 `AND Vx, Vy` (R155). -/
  | andReg (x y : Reg)
  /-- 8XY3 `XOR Vx, Vy` (R156). -/
  | xorReg (x y : Reg)
  /-- 8XY4 `ADD Vx, Vy` (R157). -/
  | addReg (x y : Reg)
  /-- 8XY5 `SUB Vx, Vy` (R158). -/
  | sub (x y : Reg)
  /-- 8XY6 `SHR Vx, Vy` (R159). -/
  | shr (x y : Reg)
  /-- 8XY7 `SUBN Vx, Vy` (R160). -/
  | subn (x y : Reg)
  /-- 8XYE `SHL Vx, Vy` (R161). -/
  | shl (x y : Reg)
  /-- 9XY0 `SNE Vx, Vy` (R127). -/
  | sneReg (x y : Reg)
  /-- ANNN `LD I, addr` (R191). -/
  | ldI (nnn : Addr)
  /-- BNNN `JP V0, addr` / `JP Vx, addr` (R128): both fields of the row, x being the top nibble of nnn (R74). -/
  | jpOff (nnn : Addr) (x : Reg)
  /-- CXNN `RND Vx, #nn` (R162). -/
  | rnd (x : Reg) (nn : Byte)
  /-- DXYN `DRW Vx, Vy, #n` (R102), n rows. -/
  | drw (x y : Reg) (n : Fin 16)
  /-- EX9E `SKP Vx` (R221). -/
  | skp (x : Reg)
  /-- EXA1 `SKNP Vx` (R222). -/
  | sknp (x : Reg)
  /-- FX07 `LD Vx, DT` (R223). -/
  | ldVxDT (x : Reg)
  /-- FX0A `LD Vx, K` (R224). -/
  | ldVxK (x : Reg)
  /-- FX15 `LD DT, Vx` (R225). -/
  | ldDTVx (x : Reg)
  /-- FX18 `LD ST, Vx` (R226). -/
  | ldSTVx (x : Reg)
  /-- FX1E `ADD I, Vx` (R192). -/
  | addI (x : Reg)
  /-- FX29 `LD F, Vx` (R193). -/
  | ldF (x : Reg)
  /-- FX33 `LD B, Vx` (R194). -/
  | ldB (x : Reg)
  /-- FX55 `LD [I], Vx` (R195). -/
  | storeRegs (x : Reg)
  /-- FX65 `LD Vx, [I]` (R196). -/
  | loadRegs (x : Reg)
  deriving DecidableEq, Repr

end Sys2Proof
end

