-- ==== Sys2Proof/Decode.lean ====
section
/-! DEFINITION. Fields, decoder and encoder (30_encoding.md). Decoding is a pure, total function of the opcode (R87):
every word is one of the 34 instructions or an unknown opcode, by name (R82). -/

namespace Sys2Proof

/-! ## Fields (R71, R72) -/

/-- n0 = op[15:12], the major opcode. -/
def majorNibble (op : Word) : BitVec 4 := op.extractLsb' 12 4

/-- X = op[11:8]. -/
def fieldX (op : Word) : Reg := (op.extractLsb' 8 4).toFin

/-- Y = op[7:4]. -/
def fieldY (op : Word) : Reg := (op.extractLsb' 4 4).toFin

/-- N = n3 = op[3:0]. -/
def fieldN (op : Word) : Fin 16 := (op.extractLsb' 0 4).toFin

/-- NN = op[7:0]. -/
def fieldNN (op : Word) : Byte := op.extractLsb' 0 8

/-- NNN = op[11:0]. -/
def fieldNNN (op : Word) : Addr := op.extractLsb' 0 12

/-! ## Decoder (R75-R83) -/

/-- What a word is: one of the 34 instructions, or the explicit unknown opcode of R82 and R87. -/
inductive Decoded where
  | instr (i : Instr)
  | unknown (op : Word)
  deriving DecidableEq, Repr

/-- Secondary switch of n0 = 0x0, on NN (R76). -/
def decode0 (op : Word) : Decoded :=
  match fieldNN op with
  | 0xE0#8 => .instr .cls
  | 0xEE#8 => .instr .ret
  | _ => .unknown op

/-- Secondary switch of n0 = 0x8, on n3 (R77). -/
def decode8 (op : Word) : Decoded :=
  match op.extractLsb' 0 4 with
  | 0x0#4 => .instr (.ldReg (fieldX op) (fieldY op))
  | 0x1#4 => .instr (.orReg (fieldX op) (fieldY op))
  | 0x2#4 => .instr (.andReg (fieldX op) (fieldY op))
  | 0x3#4 => .instr (.xorReg (fieldX op) (fieldY op))
  | 0x4#4 => .instr (.addReg (fieldX op) (fieldY op))
  | 0x5#4 => .instr (.sub (fieldX op) (fieldY op))
  | 0x6#4 => .instr (.shr (fieldX op) (fieldY op))
  | 0x7#4 => .instr (.subn (fieldX op) (fieldY op))
  | 0xE#4 => .instr (.shl (fieldX op) (fieldY op))
  | _ => .unknown op

/-- Secondary switch of n0 = 0xE, on NN (R78). -/
def decodeE (op : Word) : Decoded :=
  match fieldNN op with
  | 0x9E#8 => .instr (.skp (fieldX op))
  | 0xA1#8 => .instr (.sknp (fieldX op))
  | _ => .unknown op

/-- Secondary switch of n0 = 0xF, on NN (R79). -/
def decodeF (op : Word) : Decoded :=
  match fieldNN op with
  | 0x07#8 => .instr (.ldVxDT (fieldX op))
  | 0x0A#8 => .instr (.ldVxK (fieldX op))
  | 0x15#8 => .instr (.ldDTVx (fieldX op))
  | 0x18#8 => .instr (.ldSTVx (fieldX op))
  | 0x1E#8 => .instr (.addI (fieldX op))
  | 0x29#8 => .instr (.ldF (fieldX op))
  | 0x33#8 => .instr (.ldB (fieldX op))
  | 0x55#8 => .instr (.storeRegs (fieldX op))
  | 0x65#8 => .instr (.loadRegs (fieldX op))
  | _ => .unknown op

/-- First-level dispatch on n0 (R75). For n0 other than 0x0, 0x8, 0xE and 0xF no further bit is checked (R80). The last
arm is n0 = 0xF. -/
def decode (op : Word) : Decoded :=
  match majorNibble op with
  | 0x0#4 => decode0 op
  | 0x1#4 => .instr (.jp (fieldNNN op))
  | 0x2#4 => .instr (.call (fieldNNN op))
  | 0x3#4 => .instr (.seImm (fieldX op) (fieldNN op))
  | 0x4#4 => .instr (.sneImm (fieldX op) (fieldNN op))
  | 0x5#4 => .instr (.seReg (fieldX op) (fieldY op))
  | 0x6#4 => .instr (.ldImm (fieldX op) (fieldNN op))
  | 0x7#4 => .instr (.addImm (fieldX op) (fieldNN op))
  | 0x8#4 => decode8 op
  | 0x9#4 => .instr (.sneReg (fieldX op) (fieldY op))
  | 0xA#4 => .instr (.ldI (fieldNNN op))
  | 0xB#4 => .instr (.jpOff (fieldNNN op) (fieldX op))
  | 0xC#4 => .instr (.rnd (fieldX op) (fieldNN op))
  | 0xD#4 => .instr (.drw (fieldX op) (fieldY op) (fieldN op))
  | 0xE#4 => decodeE op
  | _ => decodeF op

/-- The opcode of two consecutive bytes, big-endian: `byte1 << 8 | byte2` (20_memory.md R51, R55). -/
def opcodeOfBytes (b1 b2 : Byte) : Word := b1 ++ b2

/-- The decoder on bytes as they lie in memory, the lower address first. -/
def decodeBytes (b1 b2 : Byte) : Decoded := decode (opcodeOfBytes b1 b2)

/-! ## The opcode map as a table (R81) -/

/-- One row of R81's table: the word's fixed bits are `mask`, their value `value`. -/
structure OpcodeRow where
  pattern : String
  value : Word
  mask : Word
  deriving DecidableEq, Repr

/-- A word selects the row "whose `(op AND mask) = match`" (R81). -/
def OpcodeRow.selects (r : OpcodeRow) (op : Word) : Bool := op &&& r.mask == r.value

/-- The row an instruction belongs to, letter for letter from R81 (and spec/opcode_table.json). -/
def Instr.row : Instr → OpcodeRow
  | .cls => ⟨"00E0", 0x00E0, 0xF0FF⟩
  | .ret => ⟨"00EE", 0x00EE, 0xF0FF⟩
  | .jp _ => ⟨"1NNN", 0x1000, 0xF000⟩
  | .call _ => ⟨"2NNN", 0x2000, 0xF000⟩
  | .seImm _ _ => ⟨"3XNN", 0x3000, 0xF000⟩
  | .sneImm _ _ => ⟨"4XNN", 0x4000, 0xF000⟩
  | .seReg _ _ => ⟨"5XY0", 0x5000, 0xF000⟩
  | .ldImm _ _ => ⟨"6XNN", 0x6000, 0xF000⟩
  | .addImm _ _ => ⟨"7XNN", 0x7000, 0xF000⟩
  | .ldReg _ _ => ⟨"8XY0", 0x8000, 0xF00F⟩
  | .orReg _ _ => ⟨"8XY1", 0x8001, 0xF00F⟩
  | .andReg _ _ => ⟨"8XY2", 0x8002, 0xF00F⟩
  | .xorReg _ _ => ⟨"8XY3", 0x8003, 0xF00F⟩
  | .addReg _ _ => ⟨"8XY4", 0x8004, 0xF00F⟩
  | .sub _ _ => ⟨"8XY5", 0x8005, 0xF00F⟩
  | .shr _ _ => ⟨"8XY6", 0x8006, 0xF00F⟩
  | .subn _ _ => ⟨"8XY7", 0x8007, 0xF00F⟩
  | .shl _ _ => ⟨"8XYE", 0x800E, 0xF00F⟩
  | .sneReg _ _ => ⟨"9XY0", 0x9000, 0xF000⟩
  | .ldI _ => ⟨"ANNN", 0xA000, 0xF000⟩
  | .jpOff _ _ => ⟨"BNNN", 0xB000, 0xF000⟩
  | .rnd _ _ => ⟨"CXNN", 0xC000, 0xF000⟩
  | .drw _ _ _ => ⟨"DXYN", 0xD000, 0xF000⟩
  | .skp _ => ⟨"EX9E", 0xE09E, 0xF0FF⟩
  | .sknp _ => ⟨"EXA1", 0xE0A1, 0xF0FF⟩
  | .ldVxDT _ => ⟨"FX07", 0xF007, 0xF0FF⟩
  | .ldVxK _ => ⟨"FX0A", 0xF00A, 0xF0FF⟩
  | .ldDTVx _ => ⟨"FX15", 0xF015, 0xF0FF⟩
  | .ldSTVx _ => ⟨"FX18", 0xF018, 0xF0FF⟩
  | .addI _ => ⟨"FX1E", 0xF01E, 0xF0FF⟩
  | .ldF _ => ⟨"FX29", 0xF029, 0xF0FF⟩
  | .ldB _ => ⟨"FX33", 0xF033, 0xF0FF⟩
  | .storeRegs _ => ⟨"FX55", 0xF055, 0xF0FF⟩
  | .loadRegs _ => ⟨"FX65", 0xF065, 0xF0FF⟩

/-- One instruction of each row, in the table's order; the operands do not matter. -/
def instrOfEachRow : List Instr :=
  [.cls, .ret, .jp 0, .call 0, .seImm 0 0, .sneImm 0 0, .seReg 0 0, .ldImm 0 0, .addImm 0 0] ++
  [.ldReg 0 0, .orReg 0 0, .andReg 0 0, .xorReg 0 0, .addReg 0 0, .sub 0 0, .shr 0 0, .subn 0 0, .shl 0 0] ++
  [.sneReg 0 0, .ldI 0, .jpOff 0 0, .rnd 0 0, .drw 0 0 0, .skp 0, .sknp 0] ++
  [.ldVxDT 0, .ldVxK 0, .ldDTVx 0, .ldSTVx 0, .addI 0, .ldF 0, .ldB 0, .storeRegs 0, .loadRegs 0]

/-- The 34 rows of R81. -/
def opcodeTable : List OpcodeRow := instrOfEachRow.map Instr.row

/-! ## Encoder, from the same table and fields -/

/-- The nibble of a register index or a row count. -/
def nibble (k : Fin 16) : BitVec 4 := BitVec.ofFin k

/-- The word of four nibbles n0, X, Y, N (R71). -/
def wordXYN (n0 x y n : BitVec 4) : Word := n0 ++ x ++ y ++ n

/-- The word of n0, X and NN (R71). -/
def wordXNN (n0 x : BitVec 4) (nn : Byte) : Word := n0 ++ x ++ nn

/-- The word of n0 and NNN (R71). -/
def wordNNN (n0 : BitVec 4) (nnn : Addr) : Word := n0 ++ nnn

/-- The word of an instruction; bits its row does not fix and no operand holds are 0. -/
def encode : Instr → Word
  | .cls => wordXNN 0x0 0x0 0xE0
  | .ret => wordXNN 0x0 0x0 0xEE
  | .jp nnn => wordNNN 0x1 nnn
  | .call nnn => wordNNN 0x2 nnn
  | .seImm x nn => wordXNN 0x3 (nibble x) nn
  | .sneImm x nn => wordXNN 0x4 (nibble x) nn
  | .seReg x y => wordXYN 0x5 (nibble x) (nibble y) 0x0
  | .ldImm x nn => wordXNN 0x6 (nibble x) nn
  | .addImm x nn => wordXNN 0x7 (nibble x) nn
  | .ldReg x y => wordXYN 0x8 (nibble x) (nibble y) 0x0
  | .orReg x y => wordXYN 0x8 (nibble x) (nibble y) 0x1
  | .andReg x y => wordXYN 0x8 (nibble x) (nibble y) 0x2
  | .xorReg x y => wordXYN 0x8 (nibble x) (nibble y) 0x3
  | .addReg x y => wordXYN 0x8 (nibble x) (nibble y) 0x4
  | .sub x y => wordXYN 0x8 (nibble x) (nibble y) 0x5
  | .shr x y => wordXYN 0x8 (nibble x) (nibble y) 0x6
  | .subn x y => wordXYN 0x8 (nibble x) (nibble y) 0x7
  | .shl x y => wordXYN 0x8 (nibble x) (nibble y) 0xE
  | .sneReg x y => wordXYN 0x9 (nibble x) (nibble y) 0x0
  | .ldI nnn => wordNNN 0xA nnn
  | .jpOff nnn _ => wordNNN 0xB nnn
  | .rnd x nn => wordXNN 0xC (nibble x) nn
  | .drw x y n => wordXYN 0xD (nibble x) (nibble y) (nibble n)
  | .skp x => wordXNN 0xE (nibble x) 0x9E
  | .sknp x => wordXNN 0xE (nibble x) 0xA1
  | .ldVxDT x => wordXNN 0xF (nibble x) 0x07
  | .ldVxK x => wordXNN 0xF (nibble x) 0x0A
  | .ldDTVx x => wordXNN 0xF (nibble x) 0x15
  | .ldSTVx x => wordXNN 0xF (nibble x) 0x18
  | .addI x => wordXNN 0xF (nibble x) 0x1E
  | .ldF x => wordXNN 0xF (nibble x) 0x29
  | .ldB x => wordXNN 0xF (nibble x) 0x33
  | .storeRegs x => wordXNN 0xF (nibble x) 0x55
  | .loadRegs x => wordXNN 0xF (nibble x) 0x65

/-- The bits of a word that its row fixes or an operand reads; the others are not examined (R76 for 00E0 and 00EE, R80
for 5XY0 and 9XY0). -/
def Instr.examinedBits : Instr → Word
  | .cls => 0xF0FF
  | .ret => 0xF0FF
  | .seReg _ _ => 0xFFF0
  | .sneReg _ _ => 0xFFF0
  | .jp _ | .call _ | .seImm _ _ | .sneImm _ _ | .ldImm _ _ | .addImm _ _ | .ldReg _ _ | .orReg _ _ | .andReg _ _
  | .xorReg _ _ | .addReg _ _ | .sub _ _ | .shr _ _ | .subn _ _ | .shl _ _ | .ldI _ | .jpOff _ _ | .rnd _ _
  | .drw _ _ _ | .skp _ | .sknp _ | .ldVxDT _ | .ldVxK _ | .ldDTVx _ | .ldSTVx _ | .addI _ | .ldF _ | .ldB _
  | .storeRegs _ | .loadRegs _ => 0xFFFF

/-! ## The host's reading of a table word -/

/-- The opcode of an instruction whose table bits are `w`: the low 16 bits of the `nbits` bits given. -/
def opcodeOfTableWord (nbits w : Nat) : Word := BitVec.ofNat 16 (w % 2 ^ nbits)

/-- The instruction the decoder reads from the bytes of that opcode, laid out big-endian; none for an unknown opcode. -/
def decodeTableWord (nbits w : Nat) : Option Instr :=
  let op := opcodeOfTableWord nbits w
  match decodeBytes (op.extractLsb' 8 8) (op.extractLsb' 0 8) with
  | .instr i => some i
  | .unknown _ => none

end Sys2Proof
end

