-- ==== Sys2Proof/Config.lean ====
section
/-! DEFINITION. The OPEN parameters of the spec (00_scope.md R6, R14) that outlive construction, as plain data, and the
free values the host supplies and the spec does not fix. -/

namespace Sys2Proof

/-- The parameters R6 marks OPEN: "A model takes each parameter marked OPEN as an argument". They reach the machine
through `State.config`, which no step writes, so a statement about every state is a statement about every value of them
(log 7). The initial mode flags are OPEN too; they are fields of the spec's own state (10_state.md R33). -/
structure Config where
  /-- `fontSet`: 80 bytes, glyph g at 5g .. 5g+4, written at 0x050 by every Reset (10_state.md R41). -/
  fontSet : Vector Byte 80
  /-- `lowMemInit`, the part at 0x000-0x04F (10_state.md R45). -/
  lowMemBelowFont : Vector Byte 80
  /-- `lowMemInit`, the part at 0x0A0-0x1FF (10_state.md R45). -/
  lowMemAboveFont : Vector Byte 352
  /-- `resetClearsTimers`: whether Reset clears DT and ST (70_reset_and_hazards.md R291). -/
  resetClearsTimers : Bool
  deriving DecidableEq, Repr

/-- The cycleCounter of the k-th Tick whose counter the host's list does not give: "any value: a free input of each
Tick" (00_scope.md R15, 93_implementation_defined.md U16). No body: nothing can be proved of its value. DESIGN CHOICE,
safe (log 9). -/
opaque Config.freeCycleCounter : Nat → Nat

/-- The byte the key-state accessor shows for pressed key k, before it is made nonzero: the spec fixes only that it is
nonzero (93_implementation_defined.md U20). No body. DESIGN CHOICE, safe (log 18). -/
opaque Config.keyByte : Nat → Byte

end Sys2Proof
end

