-- ==== Sys2Proof/Machine/Boot.lean ====
section
/-! DEFINITION. The values `State.reset` takes for what the spec leaves OPEN: the font bytes, the low memory, the three
initial mode flags, resetClearsTimers, and the timers at construction (00_scope.md R6, 10_state.md R45). Each is a value
this model names, marked below and in its log entry; no statement rests on one. -/

namespace Sys2Proof.Machine

/-- The "suggested default" of 10_state.md R41, glyphs 0 to 7. -/
def suggestedGlyphsLow : Vector Byte 40 :=
  (#v[0xF0, 0x90, 0x90, 0x90, 0xF0, 0x20, 0x60, 0x20, 0x20, 0x70] : Vector Byte 10) ++
  (#v[0xF0, 0x10, 0xF0, 0x80, 0xF0, 0xF0, 0x10, 0xF0, 0x10, 0xF0] : Vector Byte 10) ++
  (#v[0x90, 0x90, 0xF0, 0x10, 0x10, 0xF0, 0x80, 0xF0, 0x10, 0xF0] : Vector Byte 10) ++
  (#v[0xF0, 0x80, 0xF0, 0x90, 0xF0, 0xF0, 0x10, 0x20, 0x40, 0x40] : Vector Byte 10)

/-- The "suggested default" of 10_state.md R41, glyphs 8 to F. -/
def suggestedGlyphsHigh : Vector Byte 40 :=
  (#v[0xF0, 0x90, 0xF0, 0x90, 0xF0, 0xF0, 0x90, 0xF0, 0x10, 0xF0] : Vector Byte 10) ++
  (#v[0xF0, 0x90, 0xF0, 0x90, 0x90, 0xE0, 0x90, 0xE0, 0x90, 0xE0] : Vector Byte 10) ++
  (#v[0xF0, 0x80, 0x80, 0x80, 0xF0, 0xE0, 0x90, 0x90, 0x90, 0xE0] : Vector Byte 10) ++
  (#v[0xF0, 0x80, 0xF0, 0x80, 0xF0, 0xF0, 0x80, 0xF0, 0x80, 0x80] : Vector Byte 10)

/-- PRESUMED, unsafe (log 2): the conventional font; the spec gives no bytes and warns that these need not be the
repository's (10_state.md R41, 92_eei_decisions.md D4). -/
def bootFontSet : Vector Byte 80 := suggestedGlyphsLow ++ suggestedGlyphsHigh

/-- The parameters of the machine after reset. `lowMemInit` all zero: DESIGN CHOICE, unsafe (log 3). `resetClearsTimers`
false: DESIGN CHOICE, unsafe (log 4). -/
def bootConfig : Config where
  fontSet := bootFontSet
  lowMemBelowFont := Vector.replicate 80 0
  lowMemAboveFont := Vector.replicate 352 0
  resetClearsTimers := false

/-- Initial `shiftUsesVY`, OPEN (10_state.md R33). DESIGN CHOICE, unsafe (log 1). -/
def bootShiftUsesVY : Bool := false

/-- Initial `jumpAddsVX`, OPEN (10_state.md R33). DESIGN CHOICE, unsafe (log 1). -/
def bootJumpAddsVX : Bool := false

/-- Initial `loadStoreIncrementsI`, OPEN (10_state.md R33). DESIGN CHOICE, unsafe (log 1). -/
def bootLoadStoreIncrementsI : Bool := false

/-- DT at construction, which the spec leaves unspecified (10_state.md R45). DESIGN CHOICE, unsafe (log 5). -/
def bootDT : Byte := 0

/-- ST at construction, which the spec leaves unspecified (10_state.md R45). DESIGN CHOICE, unsafe (log 5). -/
def bootST : Byte := 0

/-- rndSeed at construction, which the spec leaves unspecified and no program observes (10_state.md R40, R44). DESIGN
CHOICE (log 6). -/
def bootRndSeed : Byte := 0

end Sys2Proof.Machine
end

