-- ==== Sys2Proof/Machine/State.lean ====
section
/-! DEFINITION. The machine's state as plain data (10_state.md R20), its faults (60_exceptions.md R251, R252), and the
state after reset (10_state.md R44, R45). -/

namespace Sys2Proof.Machine

/-- Bytes of a 4096-byte buffer that differ from what an unlisted address reads as, by rising address. -/
abbrev Memory := List Host.Cell

/-- The host's actions between Ticks, and the Tick itself with its argument (60_exceptions.md R283). -/
inductive HostAction where
  /-- `Tick(cycleCounter)`, any natural number (R15, 30_encoding.md R85). -/
  | tick (cycleCounter : Nat)
  /-- `SetKey(key, pressed)`, any integer (R275, R277). -/
  | setKey (key : Int) (pressed : Bool)
  /-- `LoadROM(bytes, size)`: the image's bytes, `none` for a null pointer; size is their number (R294; log 15). -/
  | loadROM (image : Option (List Byte))
  /-- `LoadROMFromFile(path)`: the file's bytes, `none` if it cannot be opened (R296; log 16). -/
  | loadROMFromFile (file : Option (List Byte))
  /-- `Reset()` (70_reset_and_hazards.md R291). -/
  | reset
  /-- `SetShiftUsesVY(b)` (R286). -/
  | setShiftUsesVY (b : Bool)
  /-- `SetJumpAddsVX(b)` (R286). -/
  | setJumpAddsVX (b : Bool)
  /-- `SetLoadStoreIncrementsI(b)` (R286). -/
  | setLoadStoreIncrementsI (b : Bool)
  /-- `SetLogger(callback)`: "no effect on VM state" (R285; log 17). -/
  | setLogger
  deriving DecidableEq, Repr

/-- What the block emits: no rule reads it (60_exceptions.md R285; log 11). -/
inductive Output where
  /-- The log event `UnknownOpcode(op)` of a Tick (30_encoding.md R82). -/
  | logUnknownOpcode (op : Word)
  /-- The Boolean result of `LoadROM` or `LoadROMFromFile` (70_reset_and_hazards.md R294, R296). -/
  | loadResult (success : Bool)
  deriving DecidableEq, Repr

/-- The five conditions that fault, with the info recorded: a closed list (60_exceptions.md R251). Each stands for a
state the source calls undefined, so each is safe: a claim must assume it does not occur (R252). -/
inductive FaultKind where
  /-- Raised by the fetch of every Tick, pc > 0xFFE (20_memory.md R52). Safe. -/
  | fetchOutOfRange (pc : Word)
  /-- Raised by DXYN, FX33, FX55, FX65, an effective address above 0xFFF (20_memory.md R53, R54). Safe. -/
  | memoryOutOfRange (addr : Nat)
  /-- Raised by DXYN, a pixel index above 2047 (40_display.md R104). Safe. -/
  | framebufferOutOfRange (p : Nat)
  /-- Raised by 2NNN with sp = 16 (41_control_flow.md R123). Safe. -/
  | stackOverflow
  /-- Raised by 00EE with sp = 0 (41_control_flow.md R121). Safe. -/
  | stackUnderflow
  deriving DecidableEq, Repr

structure State where
  /-- Live memory 0x000-0xFFF (R38). -/
  mem : Memory
  /-- The ROM-copy buffer (R39); an unlisted byte is 0. -/
  romCopy : Memory
  /-- V0-VF (R21). -/
  V : Vector Byte 16
  /-- The index register, 16 bits, never masked (R28). -/
  I : Word
  /-- The program counter, 16 bits (R24). -/
  pc : Word
  /-- The call stack's entries (R29). -/
  stack : Vector Word 16
  /-- The entries in use, and the next free slot, 0..16 (R29). -/
  sp : Fin 17
  /-- The delay timer (R31). -/
  DT : Byte
  /-- The sound timer (R32). -/
  ST : Byte
  /-- key[k]: key k is pressed (R34). -/
  key : Vector Bool 16
  /-- A press transition since the end of the last Tick (R35). -/
  keyPressedThisTick : Bool
  /-- The last key pressed (R35). -/
  lastKey : Fin 16
  /-- The framebuffer, 64 x 32, one byte a pixel, each 0 or 1 (R36). -/
  fb : Vector Byte 2048
  /-- The cycle counter of the current Tick mod 256 (R40). -/
  rndSeed : Byte
  /-- Mode flag of 8XY6, 8XYE (R33). -/
  shiftUsesVY : Bool
  /-- Mode flag of BNNN (R33). -/
  jumpAddsVX : Bool
  /-- Mode flag of FX55, FX65 (R33). -/
  loadStoreIncrementsI : Bool
  /-- The model's own: the OPEN parameters (00_scope.md R6; log 7). -/
  config : Config
  /-- The model's own: the host's actions still to come, oldest first (60_exceptions.md R287; log 8). -/
  host : List HostAction
  /-- The model's own: how many Ticks took a free cycleCounter (log 9). -/
  freeIndex : Nat
  /-- The model's own: what the block has emitted, oldest first (log 11). -/
  outputs : List Output
  deriving DecidableEq, Repr

/-- Why a step stops. Both forms are safe: they say nothing of a state the source calls undefined. -/
inductive Fault where
  /-- `raise F(info)` inside fetch or an instruction's meaning, before the Tick has recorded it (00_scope.md R9). Safe. -/
  | raised (kind : FaultKind)
  /-- `Faulted(F, info, op, s)`: the terminal record the Tick makes, with the opcode being executed (none for a fetch
  fault) and the state before the Tick (60_exceptions.md R251, R252). Safe. -/
  | faulted (kind : FaultKind) (op : Option Word) (before : State)
  deriving DecidableEq, Repr

/-- Why a step has no meaning. "The interpreter never refuses an opcode" (00_scope.md R13): no step ends so. -/
inductive Refusal where
  /-- Raised by exec's arm of an instruction without a meaning; safe; no arm raises it now. -/
  | notModelled (mnemonic : String)
  deriving DecidableEq, Repr

/-- The machine right after construction and its first Reset (10_state.md R44, R45): every field as the spec says, with
the values of Boot.lean where it says OPEN or unspecified, nothing listed in memory, and no host action pending. -/
def State.reset : State where
  mem := []
  romCopy := []
  V := Vector.replicate 16 0
  I := 0
  pc := 0x200
  stack := Vector.replicate 16 0
  sp := 0
  DT := bootDT
  ST := bootST
  key := Vector.replicate 16 false
  keyPressedThisTick := false
  lastKey := 0
  fb := Vector.replicate 2048 0
  rndSeed := bootRndSeed
  shiftUsesVY := bootShiftUsesVY
  jumpAddsVX := bootJumpAddsVX
  loadStoreIncrementsI := bootLoadStoreIncrementsI
  config := bootConfig
  host := []
  freeIndex := 0
  outputs := []

end Sys2Proof.Machine
end

