-- ==== Sys2Proof/Machine/Memory.lean ====
section
/-! DEFINITION. A 4096-byte buffer as a list of cells by rising address, holding only the bytes that differ from what an
unlisted address reads as. The memory's unlisted bytes are its reset contents (10_state.md R44, R45). -/

namespace Sys2Proof.Machine

/-- The byte an unlisted address of live memory reads as: the font at 0x050-0x09F, `lowMemInit` elsewhere below 0x200,
and the empty ROM copy's zero from 0x200 on (10_state.md R44, R45; log 14). -/
def unlisted (c : Config) (a : Nat) : Byte :=
  if 0x200 ≤ a then 0
  else if a < 0x050 then c.lowMemBelowFont[a]?.getD 0
  else if a < 0x0A0 then c.fontSet[a - 0x050]?.getD 0
  else c.lowMemAboveFont[a - 0x0A0]?.getD 0

/-- The listed byte at `a`, if any. -/
def Memory.lookup : Memory → Nat → Option Byte
  | [], _ => none
  | (b, v) :: m, a => if a = b then some v else Memory.lookup m a

/-- List `v` at `a`, in place of what was listed there. -/
def Memory.insert : Memory → Nat → Byte → Memory
  | [], a, v => [(a, v)]
  | (b, w) :: m, a, v =>
    if a < b then (a, v) :: (b, w) :: m
    else if a = b then (a, v) :: m
    else (b, w) :: Memory.insert m a v

/-- List nothing at `a`. -/
def Memory.erase : Memory → Nat → Memory
  | [], _ => []
  | (b, w) :: m, a => if a = b then Memory.erase m a else (b, w) :: Memory.erase m a

/-- Read `a`, where an unlisted `a` reads as `blank`. -/
def Memory.load (m : Memory) (blank : Byte) (a : Nat) : Byte := (m.lookup a).getD blank

/-- Write `v` at `a`, where an unlisted `a` reads as `blank`. -/
def Memory.store (m : Memory) (blank : Byte) (a : Nat) (v : Byte) : Memory :=
  if v = blank then m.erase a else m.insert a v

/-- The canonical form of live memory: addresses strictly rising, inside 0x000-0xFFF, and no entry equal to what an
unlisted address reads as. -/
abbrev Memory.wf (c : Config) (m : Memory) : Prop :=
  (m.map Prod.fst).Pairwise (· < ·) ∧ ∀ cell ∈ m, cell.1 ≤ 0xFFF ∧ cell.2 ≠ unlisted c cell.1

/-- The canonical form of the ROM copy: as memory's, with zero unlisted, and "only offsets 0x200-0xFFF" in use (R39). -/
abbrev Memory.romWf (m : Memory) : Prop :=
  (m.map Prod.fst).Pairwise (· < ·) ∧ ∀ cell ∈ m, 0x200 ≤ cell.1 ∧ cell.1 ≤ 0xFFF ∧ cell.2 ≠ 0

end Sys2Proof.Machine
end

