-- ==== Sys2Proof/Machine/Operands.lean ====
section
/-! DEFINITION. Reading operands: registers, effective addresses, the mode-selected operands of 8XY6/8XYE and BNNN, key
and font lookups, decimal digits. -/

namespace Sys2Proof.Machine

/-- `V[i]` (00_scope.md R9). -/
def State.getV (s : State) (i : Reg) : Byte := s.V[i.val]

/-- The registers V0..Vx of FX55 and FX65, in ascending order; "clamped to VF if X>15" never acts, since x is a 4-bit
field (43_index_memory.md R195, R196). -/
def regsThrough (x : Reg) : List Reg := (List.finRange 16).filter (fun i => i.val ≤ x.val)

/-- The effective address I + k, an exact integer with no wrap (20_memory.md R60, 43_index_memory.md R190). -/
def State.effAddr (s : State) (k : Nat) : Nat := s.I.toNat + k

/-- The value 8XY6 and 8XYE shift: V[y] when `shiftUsesVY`, else V[x] (42_alu.md R159, R161). -/
def State.shiftSource (s : State) (x y : Reg) : Byte := if s.shiftUsesVY then s.getV y else s.getV x

/-- What BNNN adds: V[x] when `jumpAddsVX` (mode B), else V0 (mode A) (41_control_flow.md R128). -/
def State.jumpOffset (s : State) (x : Reg) : Byte := if s.jumpAddsVX then s.getV x else s.getV 0

/-- The state of the key a whole byte names; none for 16 and above, which "ignore out-of-range values"
(44_keys_timers.md R220). -/
def State.keyState (s : State) (k : Byte) : Option Bool := s.key[k.toNat]?

/-- The address of the glyph for a digit, 0x050 + 5 * digit; none for 16 and above (43_index_memory.md R193). -/
def glyphAddress (digit : Byte) : Option Word :=
  if digit.toNat ≤ 15 then some (BitVec.ofNat 16 (0x050 + 5 * digit.toNat)) else none

/-- The hundreds digit, v div 100 (43_index_memory.md R194). -/
def hundredsDigit (v : Byte) : Byte := BitVec.ofNat 8 (v.toNat / 100)

/-- The tens digit, (v div 10) mod 10 (43_index_memory.md R194). -/
def tensDigit (v : Byte) : Byte := BitVec.ofNat 8 (v.toNat / 10 % 10)

/-- The ones digit, v mod 10 (43_index_memory.md R194). -/
def onesDigit (v : Byte) : Byte := BitVec.ofNat 8 (v.toNat % 10)

/-- The framebuffer index of a sprite's column and row at origin (vx, vy), exact: "wraparound NOT applied"
(40_display.md R100). -/
def pixelIndex (vx vy : Byte) (row col : Nat) : Nat := (vx.toNat + col) + (vy.toNat + row) * 64

/-- Column `col` of a sprite row is bit 7 - col of its byte (40_display.md R103). -/
def spriteBit (sprite : Byte) (col : Nat) : Bool := sprite.getLsbD (7 - col)

end Sys2Proof.Machine
end

