-- ==== Sys2Proof/Machine/Flags.lean ====
section
/-! DEFINITION. The value VF receives from each instruction that defines it, from the original operands a = V[x] and
b = V[y]. Each is 0 or 1 (10_state.md R22). DXYN's collision flag is computed by the draw (Ops.lean, 40_display.md R105). -/

namespace Sys2Proof.Machine

/-- A flag as a byte, 0 or 1. -/
def flagByte (b : Bool) : Byte := if b then 1 else 0

/-- 8XY4: 1 when the wrapped sum r is below a (42_alu.md R157). -/
def carryFlag (a b : Byte) : Byte := flagByte ((a + b).toNat < a.toNat)

/-- 8XY5: 1 when a > b, strictly (42_alu.md R158). -/
def subFlag (a b : Byte) : Byte := flagByte (b.toNat < a.toNat)

/-- 8XY7: 0 when b < a, else 1 (42_alu.md R160). -/
def subnFlag (a b : Byte) : Byte := if b.toNat < a.toNat then 0 else 1

/-- 8XY6: the bit shifted out, bit 0 of v (42_alu.md R159). -/
def shiftRightFlag (v : Byte) : Byte := v &&& 1

/-- 8XYE: the bit shifted out, bit 7 of v (42_alu.md R161). -/
def shiftLeftFlag (v : Byte) : Byte := v >>> 7

end Sys2Proof.Machine
end

