-- ==== Sys2Proof/Machine/Ops.lean ====
section
/-! DEFINITION. The operations instruction meanings are made of (00_scope.md R9): registers, pc, stack, memory, the
sprite draw, the fetch, and the steps every Tick ends with.

The core has no exception, trap entry or trap return (60_exceptions.md R250, R259, R260): the one abnormal end of a
Tick is a model fault, `raise`, which transfers control nowhere and from which nothing returns. -/

namespace Sys2Proof.Machine

/-- What a step ends in. -/
abbrev Result := Host.Outcome State Fault Refusal

/-- `raise F(info)` (00_scope.md R9, 60_exceptions.md R252): no state is kept (R253). -/
def raise (k : FaultKind) : Result := .fault (.raised k)

/-- The end of a meaning that may have faulted. -/
def finish : Except FaultKind State → Result
  | .ok s => .next s
  | .error k => raise k

/-- The spec's own number of a fault (60_exceptions.md R251). -/
def FaultKind.code : FaultKind → Nat
  | .fetchOutOfRange _ => 1
  | .memoryOutOfRange _ => 2
  | .framebufferOutOfRange _ => 3
  | .stackOverflow => 4
  | .stackUnderflow => 5

/-! ## Registers and timers -/

/-- `V[i] <- v`; no register is hardwired (10_state.md R21). -/
def State.setV (s : State) (i : Reg) (v : Byte) : State := { s with V := s.V.set i.val v }

/-- `V[0xF] <- v`, "always the last write" of the instruction that defines the flag (42_alu.md R150). -/
def State.setFlag (s : State) (v : Byte) : State := s.setV VF v

/-- `I <- v` (10_state.md R28). -/
def State.setI (s : State) (v : Word) : State := { s with I := v }

/-- `DT <- v` (10_state.md R31). -/
def State.setDT (s : State) (v : Byte) : State := { s with DT := v }

/-- `ST <- v` (10_state.md R32). -/
def State.setST (s : State) (v : Byte) : State := { s with ST := v }

/-- `rndSeed <- v` (10_state.md R40). -/
def State.setSeed (s : State) (v : Byte) : State := { s with rndSeed := v }

/-- Emit an output; no rule reads it (60_exceptions.md R285). -/
def State.emit (s : State) (o : Output) : State := { s with outputs := s.outputs ++ [o] }

/-! ## Program counter: all arithmetic modulo 2^16 (10_state.md R24) -/

/-- `pc <- v`. -/
def State.setPc (s : State) (v : Word) : State := { s with pc := v }

/-- The shared advance (30_encoding.md R84). -/
def State.advancePc (s : State) : State := s.setPc (s.pc + 2)

/-- `skipNext`: the shared advance then adds 2 more (00_scope.md R9). -/
def State.skipNext (s : State) : State := s.setPc (s.pc + 2)

/-- `rewind`: the shared advance then cancels it (00_scope.md R9). -/
def State.rewind (s : State) : State := s.setPc (s.pc - 2)

/-- A transfer to T writes T - 2, so that the shared advance lands on T (41_control_flow.md R120). -/
def State.jumpTo (s : State) (target : Word) : State := s.setPc (target - 2)

/-- A conditional skip (41_control_flow.md R120). -/
def State.skipIf (s : State) (b : Bool) : State := if b then s.skipNext else s

/-! ## Call stack (10_state.md R29) -/

/-- Push: write stack[sp], then increment sp; sp = 16 overflows. -/
def State.push (s : State) (v : Word) : Except FaultKind State :=
  if h : s.sp.val < 16 then
    .ok { s with stack := s.stack.set s.sp.val v, sp := ⟨s.sp.val + 1, Nat.succ_lt_succ h⟩ }
  else .error .stackOverflow

/-- Pop into pc: decrement sp, then read stack[sp]; sp = 0 underflows; the entry is not cleared
(41_control_flow.md R121). -/
def State.popPc (s : State) : Except FaultKind State :=
  if 0 < s.sp.val then
    .ok { s with
      sp := ⟨s.sp.val - 1, Nat.lt_of_le_of_lt (Nat.sub_le _ _) s.sp.isLt⟩
      pc := s.stack[s.sp.val - 1]'(by have := s.sp.isLt; omega) }
  else .error .stackUnderflow

/-! ## Memory (20_memory.md) -/

/-- The byte of live memory at `a`. -/
def State.readByte (s : State) (a : Nat) : Byte := s.mem.load (unlisted s.config a) a

/-- Live memory with `v` at `a`. -/
def State.writeByte (s : State) (a : Nat) (v : Byte) : State :=
  { s with mem := s.mem.store (unlisted s.config a) a v }

/-- `MemRead(addr, 1)` (20_memory.md R53). -/
def State.memRead (s : State) (a : Nat) : Except FaultKind Byte :=
  if 0xFFF < a then .error (.memoryOutOfRange a) else .ok (s.readByte a)

/-- `MemWrite(addr, 1, v)`; no address is protected (20_memory.md R54). -/
def State.memWrite (s : State) (a : Nat) (v : Byte) : Except FaultKind State :=
  if 0xFFF < a then .error (.memoryOutOfRange a) else .ok (s.writeByte a v)

/-- Byte writes in the order given, up to the first that faults (20_memory.md R67). -/
def State.memWriteAll : List (Nat × Byte) → State → Except FaultKind State
  | [], s => .ok s
  | (a, v) :: rest, s =>
    match s.memWrite a v with
    | .error k => .error k
    | .ok t => State.memWriteAll rest t

/-- Loads `V[i] <- MemRead(base + i, 1)` in the order given, up to the first that faults (43_index_memory.md R196). -/
def State.loadRegsFrom (base : Nat) : List Reg → State → Except FaultKind State
  | [], s => .ok s
  | i :: rest, s =>
    match s.memRead (base + i.val) with
    | .error k => .error k
    | .ok v => State.loadRegsFrom base rest (s.setV i v)

/-- The optional `I <- trunc_16(I + x)` of FX55 and FX65, plus x and not x + 1 (43_index_memory.md R195). -/
def State.bumpI (s : State) (x : Reg) : State :=
  if s.loadStoreIncrementsI then s.setI (s.I + BitVec.ofNat 16 x.val) else s

/-! ## Framebuffer (40_display.md) -/

/-- `fb[p]`; only indices below 2048 are read. -/
def State.pixel (s : State) (p : Nat) : Byte := s.fb[p]?.getD 0

/-- The framebuffer and the collision flag while a sprite is drawn. -/
structure Canvas where
  fb : Vector Byte 2048
  collision : Bool
  deriving DecidableEq, Repr

/-- XOR a sprite bit of 1 into pixel p, noting a pixel of 1 it meets; a bit of 0 changes nothing (40_display.md R102). -/
def Canvas.xorBit (c : Canvas) (p : Nat) (h : p < 2048) (bit : Bool) : Canvas :=
  if bit then ⟨c.fb.set p (c.fb[p] ^^^ 1), c.collision || c.fb[p] == 1⟩ else c

/-- The columns of one sprite row, in the order given; an index above 2047 faults whether or not its bit is 1
(40_display.md R104). -/
def drawColumns (vx vy : Byte) (row : Nat) (sprite : Byte) : List Nat → Canvas → Except FaultKind Canvas
  | [], c => .ok c
  | col :: cols, c =>
    if h : pixelIndex vx vy row col < 2048 then
      drawColumns vx vy row sprite cols (c.xorBit (pixelIndex vx vy row col) h (spriteBit sprite col))
    else .error (.framebufferOutOfRange (pixelIndex vx vy row col))

/-- The rows of a sprite, in the order given: each row's read comes before its pixels (60_exceptions.md R256). -/
def State.drawRows (s : State) (vx vy : Byte) : List Nat → Canvas → Except FaultKind Canvas
  | [], c => .ok c
  | row :: rows, c =>
    match s.memRead (s.effAddr row) with
    | .error k => .error k
    | .ok sprite =>
      match drawColumns vx vy row sprite (List.range 8) c with
      | .error k => .error k
      | .ok c' => s.drawRows vx vy rows c'

/-- Draw n rows at (vx, vy): the framebuffer first, VF last (40_display.md R102, R105). -/
def State.drawSprite (s : State) (vx vy : Byte) (n : Nat) : Except FaultKind State :=
  match s.drawRows vx vy (List.range n) ⟨s.fb, false⟩ with
  | .error k => .error k
  | .ok c => .ok ({ s with fb := c.fb }.setFlag (flagByte c.collision))

/-- Every pixel 0 (40_display.md R101). -/
def State.clearScreen (s : State) : State := { s with fb := Vector.replicate 2048 0 }

/-! ## The Tick's own steps (30_encoding.md R85) -/

/-- Fetch the opcode at pc, big-endian; pc is unchanged (20_memory.md R51, R52). -/
def State.fetch (s : State) : Except FaultKind Word :=
  if 0xFFE < s.pc.toNat then .error (.fetchOutOfRange s.pc)
  else .ok (opcodeOfBytes (s.readByte s.pc.toNat) (s.readByte (s.pc.toNat + 1)))

/-- A timer after one Tick (60_exceptions.md R270, R271). -/
def timerStep (v : Byte) : Byte := if v = 0 then 0 else v - 1

/-- The delay timer's step, then the sound timer's (60_exceptions.md R270, R271). -/
def State.stepTimers (s : State) : State := (s.setDT (timerStep s.DT)).setST (timerStep s.ST)

/-- `keyPressedThisTick <- false`; `lastKey` is left (60_exceptions.md R272). -/
def State.clearLatch (s : State) : State := { s with keyPressedThisTick := false }

/-- What follows the execute step of every Tick that did not fault: the shared advance, the timer steps, the latch
clear, in that order (30_encoding.md R85). -/
def State.endTick (s : State) : State := s.advancePc.stepTimers.clearLatch

end Sys2Proof.Machine
end

