-- ==== Sys2Proof/Machine/Alu.lean ====
section
/-! DEFINITION. Register arithmetic and logic (42_alu.md). Operands are read before anything is written; an instruction
that defines VF writes V[x] first and VF last (R150). None can fault. -/

namespace Sys2Proof.Machine

/-- The shape of 8XY4, 8XY5, 8XY6, 8XY7 and 8XYE: V[x] first, VF last (R150). -/
def State.setResultThenFlag (s : State) (x : Reg) (result flag : Byte) : State := (s.setV x result).setFlag flag

/-- 6XNN (R151). -/
def execLdImm (x : Reg) (nn : Byte) (s : State) : Result := .next (s.setV x nn)

/-- 7XNN (R152): no flag. -/
def execAddImm (x : Reg) (nn : Byte) (s : State) : Result := .next (s.setV x (s.getV x + nn))

/-- 8XY0 (R153). -/
def execLdReg (x y : Reg) (s : State) : Result := .next (s.setV x (s.getV y))

/-- 8XY1 (R154). -/
def execOrReg (x y : Reg) (s : State) : Result := .next (s.setV x (s.getV x ||| s.getV y))

/-- 8XY2 (R155). -/
def execAndReg (x y : Reg) (s : State) : Result := .next (s.setV x (s.getV x &&& s.getV y))

/-- 8XY3 (R156). -/
def execXorReg (x y : Reg) (s : State) : Result := .next (s.setV x (s.getV x ^^^ s.getV y))

/-- 8XY4 (R157). -/
def execAddReg (x y : Reg) (s : State) : Result :=
  .next (s.setResultThenFlag x (s.getV x + s.getV y) (carryFlag (s.getV x) (s.getV y)))

/-- 8XY5 (R158). -/
def execSub (x y : Reg) (s : State) : Result :=
  .next (s.setResultThenFlag x (s.getV x - s.getV y) (subFlag (s.getV x) (s.getV y)))

/-- 8XY6 (R159). -/
def execShr (x y : Reg) (s : State) : Result :=
  .next (s.setResultThenFlag x (s.shiftSource x y >>> 1) (shiftRightFlag (s.shiftSource x y)))

/-- 8XY7 (R160). -/
def execSubn (x y : Reg) (s : State) : Result :=
  .next (s.setResultThenFlag x (s.getV y - s.getV x) (subnFlag (s.getV x) (s.getV y)))

/-- 8XYE (R161). -/
def execShl (x y : Reg) (s : State) : Result :=
  .next (s.setResultThenFlag x (s.shiftSource x y <<< 1) (shiftLeftFlag (s.shiftSource x y)))

/-- CXNN (R162): the cycle counter of this Tick mod 256, AND nn. -/
def execRnd (x : Reg) (nn : Byte) (s : State) : Result := .next (s.setV x (s.rndSeed &&& nn))

end Sys2Proof.Machine
end

