-- ==== Sys2Proof/Machine/Control.lean ====
section
/-! DEFINITION. Control transfer (41_control_flow.md). pc holds the instruction's own address; the Tick's shared advance
follows (R120). -/

namespace Sys2Proof.Machine

/-- 00EE (R121): pc becomes the popped entry. -/
def execRet (s : State) : Result := finish s.popPc

/-- 1NNN (R122). -/
def execJp (nnn : Addr) (s : State) : Result := .next (s.jumpTo (nnn.setWidth 16))

/-- 2NNN (R123): the entry pushed is pc, the address of the call itself. -/
def execCall (nnn : Addr) (s : State) : Result :=
  match s.push s.pc with
  | .error k => raise k
  | .ok t => .next (t.jumpTo (nnn.setWidth 16))

/-- 3XNN (R124). -/
def execSeImm (x : Reg) (nn : Byte) (s : State) : Result := .next (s.skipIf (s.getV x == nn))

/-- 4XNN (R125). -/
def execSneImm (x : Reg) (nn : Byte) (s : State) : Result := .next (s.skipIf (s.getV x != nn))

/-- 5XY0 (R126). -/
def execSeReg (x y : Reg) (s : State) : Result := .next (s.skipIf (s.getV x == s.getV y))

/-- 9XY0 (R127). -/
def execSneReg (x y : Reg) (s : State) : Result := .next (s.skipIf (s.getV x != s.getV y))

/-- BNNN (R128): the target nnn + V[0] (mode A) or nnn + V[x] (mode B) is not masked to 12 bits. -/
def execJpOff (nnn : Addr) (x : Reg) (s : State) : Result :=
  .next (s.jumpTo (nnn.setWidth 16 + (s.jumpOffset x).setWidth 16))

end Sys2Proof.Machine
end

