-- ==== Sys2Proof/Machine/Display.lean ====
section
/-! DEFINITION. 00E0 and DXYN (40_display.md). -/

namespace Sys2Proof.Machine

/-- 00E0 (R101). -/
def execCls (s : State) : Result := .next s.clearScreen

/-- DXYN (R102): the coordinates are the original V[x] and V[y]. -/
def execDrw (x y : Reg) (n : Fin 16) (s : State) : Result :=
  finish (s.drawSprite (s.getV x) (s.getV y) n.val)

end Sys2Proof.Machine
end

