-- ==== Sys2Proof/Machine/IndexMemory.lean ====
section
/-! DEFINITION. The index register and memory transfers through it (43_index_memory.md). -/

namespace Sys2Proof.Machine

/-- ANNN (R191). -/
def execLdI (nnn : Addr) (s : State) : Result := .next (s.setI (nnn.setWidth 16))

/-- FX1E (R192): modulo 2^16, unmasked, no flag. -/
def execAddI (x : Reg) (s : State) : Result := .next (s.setI (s.I + (s.getV x).setWidth 16))

/-- FX29 (R193): a digit of 16 or more leaves the state unchanged. -/
def execLdF (x : Reg) (s : State) : Result := .next (s.setI ((glyphAddress (s.getV x)).getD s.I))

/-- The three writes of FX33, hundreds at I (R194). -/
def State.bcdWrites (s : State) (x : Reg) : List (Nat × Byte) :=
  [(s.effAddr 0, hundredsDigit (s.getV x)), (s.effAddr 1, tensDigit (s.getV x)), (s.effAddr 2, onesDigit (s.getV x))]

/-- FX33 (R194). -/
def execLdB (x : Reg) (s : State) : Result := finish (State.memWriteAll (s.bcdWrites x) s)

/-- The writes of FX55: V[i] at I + i for i in 0..x (R195). -/
def State.storeWrites (s : State) (x : Reg) : List (Nat × Byte) :=
  (regsThrough x).map (fun i => (s.effAddr i.val, s.getV i))

/-- FX55 (R195). -/
def execStoreRegs (x : Reg) (s : State) : Result :=
  match State.memWriteAll (s.storeWrites x) s with
  | .error k => raise k
  | .ok t => .next (t.bumpI x)

/-- FX65 (R196). -/
def execLoadRegs (x : Reg) (s : State) : Result :=
  match State.loadRegsFrom (s.effAddr 0) (regsThrough x) s with
  | .error k => raise k
  | .ok t => .next (t.bumpI x)

end Sys2Proof.Machine
end

