-- ==== Sys2Proof/Machine/KeysTimers.lean ====
section
/-! DEFINITION. Keys and timers (44_keys_timers.md). The Tick's timer step and latch clear follow (R220). None can
fault. -/

namespace Sys2Proof.Machine

/-- EX9E (R221): V[x] of 16 or more never skips. -/
def execSkp (x : Reg) (s : State) : Result := .next (s.skipIf (s.keyState (s.getV x) == some true))

/-- EXA1 (R222): V[x] of 16 or more never skips. -/
def execSknp (x : Reg) (s : State) : Result := .next (s.skipIf (s.keyState (s.getV x) == some false))

/-- FX07 (R223): DT before this Tick's decrement. -/
def execLdVxDT (x : Reg) (s : State) : Result := .next (s.setV x s.DT)

/-- FX0A (R224): the key pressed this tick, or the same instruction again next Tick. -/
def execLdVxK (x : Reg) (s : State) : Result :=
  .next (if s.keyPressedThisTick then s.setV x (BitVec.ofNat 8 s.lastKey.val) else s.rewind)

/-- FX15 (R225). -/
def execLdDTVx (x : Reg) (s : State) : Result := .next (s.setDT (s.getV x))

/-- FX18 (R226). -/
def execLdSTVx (x : Reg) (s : State) : Result := .next (s.setST (s.getV x))

end Sys2Proof.Machine
end

