-- ==== Sys2Proof/Machine/HostPort.lean ====
section
/-! DEFINITION. The host's side of the block: the mutators it calls between Ticks (60_exceptions.md R283) and the read
accessors (R284). -/

namespace Sys2Proof.Machine

/-! ## SetKey (R275) -/

/-- Key k pressed or released: a press transition sets the latch, a release never clears it (R276). -/
def State.setKeyAt (s : State) (k : Fin 16) (pressed : Bool) : State :=
  if pressed && !s.key[k.val] then
    { s with key := s.key.set k.val pressed, keyPressedThisTick := true, lastKey := k }
  else { s with key := s.key.set k.val pressed }

/-- `SetKey(key, pressed)`: a key outside 0..15 changes nothing (R277). -/
def State.setKey (s : State) (key : Int) (pressed : Bool) : State :=
  if h : 0 ≤ key ∧ key < 16 then s.setKeyAt ⟨key.toNat, by omega⟩ pressed else s

/-! ## Reset (70_reset_and_hazards.md R291, R292) -/

/-- The addresses Reset leaves alone, 0x000-0x04F and 0x0A0-0x1FF (R292). -/
def keptByReset (a : Nat) : Bool := decide (a < 0x050) || (decide (0x0A0 ≤ a) && decide (a < 0x200))

/-- Work RAM and loaded program, 0x200-0xFFF (20_memory.md R59). -/
def inWorkRam (a : Nat) : Bool := decide (0x200 ≤ a) && decide (a ≤ 0xFFF)

/-- Live memory after Reset: the kept bytes, the font (unlisted, so it reads as fontSet), the ROM copy from 0x200 on. -/
def resetMemory (mem romCopy : Memory) : Memory :=
  mem.filter (fun cell => keptByReset cell.1) ++ romCopy.filter (fun cell => inWorkRam cell.1)

/-- `Reset()`: the writes of R291 as one update; romCopy, rndSeed, the mode flags and the parameters stay (R292). -/
def State.hostReset (s : State) : State :=
  { s with
    mem := resetMemory s.mem s.romCopy
    fb := Vector.replicate 2048 0
    key := Vector.replicate 16 false
    keyPressedThisTick := false
    lastKey := 0
    V := Vector.replicate 16 0
    I := 0
    pc := 0x200
    stack := Vector.replicate 16 0
    sp := 0
    DT := if s.config.resetClearsTimers then 0 else s.DT
    ST := if s.config.resetClearsTimers then 0 else s.ST }

/-! ## Loading (70_reset_and_hazards.md R294-R296) -/

/-- The largest image, 4096 - 0x200 bytes (R294). -/
def maxRomSize : Nat := 3584

/-- The bytes `LoadROM` accepts: a buffer, neither null nor empty, of at most 3584 bytes (R294). -/
def acceptedImage : Option (List Byte) → Option (List Byte)
  | none => none
  | some bytes => if bytes.length = 0 ∨ maxRomSize < bytes.length then none else some bytes

/-- The ROM copy with bytes written from address `a` on; the rest keeps its bytes (R294). -/
def copyImage : Memory → Nat → List Byte → Memory
  | rom, _, [] => rom
  | rom, a, v :: rest => copyImage (rom.store 0 a v) (a + 1) rest

/-- `LoadROM`: the result and the state; a failure changes nothing but reports itself (R294, R295). -/
def State.loadROM (s : State) (image : Option (List Byte)) : Bool × State :=
  match acceptedImage image with
  | none => (false, s)
  | some bytes => (true, { s with romCopy := copyImage s.romCopy 0x200 bytes })

/-- The capacity of the file staging buffer, 16 KiB (00_scope.md R6). -/
def stagingCapacity : Nat := 16384

/-- `LoadROMFromFile`: at most 16384 bytes are read, then `LoadROM`, then Reset in every case (R296). -/
def State.loadROMFromFile (s : State) (file : Option (List Byte)) : Bool × State :=
  match file with
  | none => (false, s.hostReset)
  | some bytes => ((s.loadROM (some (bytes.take stagingCapacity))).1, (s.loadROM (some (bytes.take stagingCapacity))).2.hostReset)

/-- Report a load's Boolean result to the host. -/
def reportLoad (r : Bool × State) : State := r.2.emit (.loadResult r.1)

/-! ## Mode setters (R286): each writes its flag and nothing else -/

/-- `SetShiftUsesVY(b)`. -/
def State.setShiftMode (s : State) (b : Bool) : State := { s with shiftUsesVY := b }

/-- `SetJumpAddsVX(b)`. -/
def State.setJumpMode (s : State) (b : Bool) : State := { s with jumpAddsVX := b }

/-- `SetLoadStoreIncrementsI(b)`. -/
def State.setLoadStoreMode (s : State) (b : Bool) : State := { s with loadStoreIncrementsI := b }

/-- `SetLogger(callback)`: the callback is no state of the machine (10_state.md R42, 60_exceptions.md R285). -/
def State.setLogger (s : State) : State := s

/-! ## A program placed from outside (log 10) -/

/-- `s` with the opcode placed, big-endian, where the next Tick fetches, and that Tick next: no host action pending, and
pc at the entry point 0x200 if no word can be fetched where it is. -/
def State.placeOpcode (s : State) (op : Word) : State :=
  let pc : Word := if s.pc.toNat ≤ 0xFFE then s.pc else 0x200
  { ((s.writeByte pc.toNat (op.extractLsb' 8 8)).writeByte (pc.toNat + 1) (op.extractLsb' 0 8)) with pc := pc, host := [] }

/-! ## Outputs (60_exceptions.md R284) -/

/-- `soundOn = (ST != 0)` (R271). -/
def State.soundOn (s : State) : Bool := s.ST != 0

/-- The framebuffer accessor: 2048 bytes. -/
def State.framebufferView (s : State) : Vector Byte 2048 := s.fb

/-- The register file accessor: 16 bytes. -/
def State.registerView (s : State) : Vector Byte 16 := s.V

/-- The byte that shows key k pressed: any nonzero byte, not stated which (93_implementation_defined.md U20; log 18). -/
def pressedByte (k : Nat) : Byte := if Config.keyByte k = 0 then 1 else Config.keyByte k

/-- The key state accessor: 16 bytes, nonzero for a pressed key, zero otherwise. -/
def State.keyView (s : State) : List Byte :=
  (List.finRange 16).map (fun k => if s.key[k.val] then pressedByte k.val else 0)

/-- The timer accessors: delay, sound. -/
def State.timerView (s : State) : Byte × Byte := (s.DT, s.ST)

/-- The index register and program counter accessors. -/
def State.pointerView (s : State) : Word × Word := (s.I, s.pc)

/-- The memory accessor: 4096 bytes. -/
def State.memoryView (s : State) : List Byte := (List.range 4096).map s.readByte

end Sys2Proof.Machine
end

