-- ==== Sys2Proof/Machine/Tick.lean ====
section
/-! DEFINITION. One Tick: seed, fetch, decode, execute, then the steps every Tick ends with (30_encoding.md R85); and the
host's actions, the Tick among them (60_exceptions.md R283). -/

namespace Sys2Proof.Machine

/-- An unknown opcode is logged and changes nothing else (30_encoding.md R82). -/
def execUnknown (op : Word) (s : State) : Result := .next (s.emit (.logUnknownOpcode op))

/-- The execute step of a decoded word. -/
def execDecoded (d : Decoded) (s : State) : Result :=
  match d with
  | .instr i => exec i s
  | .unknown op => execUnknown op s

/-- The terminal record of a raised fault: opcode and state before the Tick (60_exceptions.md R251, R252). -/
def Fault.record (f : Fault) (op : Option Word) (before : State) : Fault :=
  match f with
  | .raised k => .faulted k op before
  | .faulted k op' before' => .faulted k op' before'

/-- `rndSeed <- cycleCounter mod 256` (10_state.md R40). -/
def seedOf (cycleCounter : Nat) : Byte := BitVec.ofNat 8 cycleCounter

/-- What a Tick does after the execute step: a fault is recorded and keeps none of the Tick's writes, the seed's
included (60_exceptions.md R253). -/
def finishTick (op : Word) (before : State) : Result → Result
  | .next t => .next t.endTick
  | .fault f => .fault (f.record (some op) before)
  | .refused r => .refused r

/-- `Tick(cycleCounter)` (30_encoding.md R85). -/
def tick (cycleCounter : Nat) (s : State) : Result :=
  match (s.setSeed (seedOf cycleCounter)).fetch with
  | .error k => .fault ((Fault.raised k).record none s)
  | .ok op => finishTick op s (execDecoded (decode op) (s.setSeed (seedOf cycleCounter)))

/-- One host action (60_exceptions.md R283), with what it reports to the host. -/
def act (a : HostAction) (s : State) : Result :=
  match a with
  | .tick cycleCounter => tick cycleCounter s
  | .setKey key pressed => .next (s.setKey key pressed)
  | .loadROM image => .next (reportLoad (s.loadROM image))
  | .loadROMFromFile file => .next (reportLoad (s.loadROMFromFile file))
  | .reset => .next s.hostReset
  | .setShiftUsesVY b => .next (s.setShiftMode b)
  | .setJumpAddsVX b => .next (s.setJumpMode b)
  | .setLoadStoreIncrementsI b => .next (s.setLoadStoreMode b)
  | .setLogger => .next s.setLogger

end Sys2Proof.Machine
end

