-- ==== Sys2Proof/Machine/Step.lean ====
section
/-! DEFINITION. One step of the block: host actions and Ticks form one sequence (60_exceptions.md R287), taken from
`State.host`, oldest first; when the list is empty the host calls Tick with a cycleCounter that is a free value
(log 8, log 9). -/

namespace Sys2Proof.Machine

def step (s : State) : Host.Outcome State Fault Refusal :=
  match s.host with
  | [] => tick (Config.freeCycleCounter s.freeIndex) { s with freeIndex := s.freeIndex + 1 }
  | a :: rest => act a { s with host := rest }

/-- `s` with a table word placed where step fetches its next instruction, and that Tick next (log 10). -/
def State.withFetchWord (s : State) (nbits w : Nat) : State := s.placeOpcode (opcodeOfTableWord nbits w)

end Sys2Proof.Machine
end

