-- ==== Sys2Proof/Safety.lean ====
section
/-! DEFINITION. What claims are stated in terms of: the invariant of the state, runs, safe runs, and frames. -/

namespace Sys2Proof.Machine

/-- Every framebuffer byte is 0 or 1 (10_state.md R36, R46). -/
abbrev State.fbBinary (s : State) : Prop := ∀ v ∈ s.fb, v = 0 ∨ v = 1

/-- The invariant of the state (10_state.md R46, R39; log 14): memory and ROM copy in canonical form, pixels 0 or 1.
That sp is in 0..16 and every field has its width is in State's types. -/
abbrev State.Inv (s : State) : Prop := s.mem.wf s.config ∧ s.romCopy.romWf ∧ s.fbBinary

/-- Some number of steps leads from s to t, none of which stops. -/
inductive Reaches : State → State → Prop where
  | refl (s : State) : Reaches s s
  | step {s t u : State} (first : step s = .next t) (rest : Reaches t u) : Reaches s u

/-- A run in which the host calls only Tick, with the cycleCounters given, none of which faults. -/
inductive TicksTo : State → List Nat → State → Prop where
  | nil (s : State) : TicksTo s [] s
  | cons {s t u : State} {cycleCounter : Nat} {rest : List Nat} (first : tick cycleCounter s = .next t)
      (more : TicksTo t rest u) : TicksTo s (cycleCounter :: rest) u

/-- A host action that loads a program image (70_reset_and_hazards.md R294, R296). -/
def HostAction.isLoad : HostAction → Bool
  | .loadROM _ => true
  | .loadROMFromFile _ => true
  | .tick _ => false
  | .setKey _ _ => false
  | .reset => false
  | .setShiftUsesVY _ => false
  | .setJumpAddsVX _ => false
  | .setLoadStoreIncrementsI _ => false
  | .setLogger => false

/-- The next step performs a load: the oldest pending action is one. -/
def State.loadsNext (s : State) : Bool :=
  match s.host with
  | [] => false
  | a :: _ => a.isLoad

/-- Some number of steps leads from s to t, none of which stops and none of which is a load. -/
inductive ReachesWithoutLoad : State → State → Prop where
  | refl (s : State) : ReachesWithoutLoad s s
  | step {s t u : State} (noLoad : s.loadsNext = false) (first : step s = .next t) (rest : ReachesWithoutLoad t u) :
      ReachesWithoutLoad s u

/-- The ROM copy holds the bytes from 0x200 on (70_reset_and_hazards.md R294). -/
abbrev State.romHolds (s : State) (bytes : List Byte) : Prop :=
  ∀ j, (h : j < bytes.length) → s.romCopy.load 0 (0x200 + j) = bytes[j]

/-- A safe run: "Every claim about a program takes 'no fault reached' as a premise" (60_exceptions.md R252). -/
def State.FaultFree (s : State) : Prop := ∀ t, Reaches s t → ∃ u, step t = .next u

/-- Every byte of live memory reads as before. -/
def SameMemory (s t : State) : Prop := ∀ a, t.readByte a = s.readByte a

/-- Every register outside the list is as before. -/
def SameRegsExcept (s t : State) (changed : List Reg) : Prop := ∀ r, r ∉ changed → t.getV r = s.getV r

/-- Some sprite bit of 1 meets pixel p: a row below n and a column below 8 whose index is p, in which the sprite's bit is
1 (40_display.md R100, R102, R103). -/
abbrev State.spriteHits (s : State) (vx vy : Byte) (n p : Nat) : Prop :=
  ∃ row, row < n ∧ ∃ col, col < 8 ∧ pixelIndex vx vy row col = p ∧ spriteBit (s.readByte (s.effAddr row)) col = true

/-- Some sprite bit of 1 meets a pixel of 1 (40_display.md R105). -/
abbrev State.spriteCollides (s : State) (vx vy : Byte) (n : Nat) : Prop :=
  ∃ row, row < n ∧ ∃ col, col < 8 ∧ spriteBit (s.readByte (s.effAddr row)) col = true ∧
    s.pixel (pixelIndex vx vy row col) = 1

/-- Row `row` of a sprite draws without a fault: its byte is in memory and its last pixel, hence each of its eight, in
the framebuffer (40_display.md R102, R104). -/
abbrev State.rowFits (s : State) (vx vy : Byte) (row : Nat) : Prop :=
  s.effAddr row ≤ 0xFFF ∧ pixelIndex vx vy row 7 < 2048

/-- pc after a Tick that runs `i` and does not fault, from the state before it: the table of 10_state.md R25, every sum
modulo 2^16. -/
def pcAfterTick (i : Instr) (s : State) : Word :=
  match i with
  | .jp nnn => nnn.setWidth 16
  | .call nnn => nnn.setWidth 16
  | .jpOff nnn x => nnn.setWidth 16 + (if s.jumpAddsVX then s.getV x else s.getV 0).setWidth 16
  | .ret => s.stack[s.sp.val - 1]?.getD 0 + 2
  | .seImm x nn => if s.getV x = nn then s.pc + 4 else s.pc + 2
  | .sneImm x nn => if s.getV x ≠ nn then s.pc + 4 else s.pc + 2
  | .seReg x y => if s.getV x = s.getV y then s.pc + 4 else s.pc + 2
  | .sneReg x y => if s.getV x ≠ s.getV y then s.pc + 4 else s.pc + 2
  | .skp x => if s.key[(s.getV x).toNat]? = some true then s.pc + 4 else s.pc + 2
  | .sknp x => if s.key[(s.getV x).toNat]? = some false then s.pc + 4 else s.pc + 2
  | .ldVxK _ => if s.keyPressedThisTick then s.pc + 2 else s.pc
  | .cls | .ldImm _ _ | .addImm _ _ | .ldReg _ _ | .orReg _ _ | .andReg _ _ | .xorReg _ _ | .addReg _ _ | .sub _ _
  | .shr _ _ | .subn _ _ | .shl _ _ | .ldI _ | .rnd _ _ | .drw _ _ _ | .ldVxDT _ | .ldDTVx _ | .ldSTVx _ | .addI _
  | .ldF _ | .ldB _ | .storeRegs _ | .loadRegs _ => s.pc + 2

/-- A word that selects the row reads as the instruction given by its fields (30_encoding.md R81). -/
def Selects (value mask : Word) (f : Word → Instr) : Prop := ∀ op, op &&& mask = value → decode op = .instr (f op)

end Sys2Proof.Machine
end

