-- ==== Sys2Proof/Certificates/Slice0/Obligations.lean ====
section
/-! DEFINITION. The statements of this model. Where a clause rests on a value or decision that is not the source's, its
docstring names the spec's decision (D<n>) or the log entry. Frames are written as "the next state is the old one but
for the fields named", and `SameMemory` says it of every byte read. -/

open Sys2Proof Sys2Proof.Machine

/-! ## Encoding (30_encoding.md) -/

/-- Words written out from the encodings, one or more of each family, and unknown words (95_test_vectors.md X1-X16). -/
def Obligations.DecodesKnownWords : Prop :=
  decode 0x0000 = .unknown 0x0000 ∧ decode 0x00E0 = .instr .cls ∧ decode 0x01E0 = .instr .cls ∧
  decode 0x0EEE = .instr .ret ∧ decode 0x00E1 = .unknown 0x00E1 ∧ decode 0x0123 = .unknown 0x0123 ∧
  decode 0x5121 = .instr (.seReg 1 2) ∧ decode 0x9AB7 = .instr (.sneReg 0xA 0xB) ∧
  decode 0x8008 = .unknown 0x8008 ∧ decode 0x800F = .unknown 0x800F ∧ decode 0x812E = .instr (.shl 1 2) ∧
  decode 0xE09F = .unknown 0xE09F ∧ decode 0xF000 = .unknown 0xF000 ∧ decode 0xFFFF = .unknown 0xFFFF ∧
  decode 0xF265 = .instr (.loadRegs 2) ∧ decode 0xB210 = .instr (.jpOff 0x210 2) ∧
  decode 0xA22A = .instr (.ldI 0x22A) ∧ decode 0xD015 = .instr (.drw 0 1 5) ∧ decode 0xE1A1 = .instr (.sknp 1)

/-- Decoding the word of a well-formed instruction gives it back, with every operand at every value. -/
def Obligations.DecodeOfEncodeIsIdentity : Prop :=
  ∀ i : Instr, i.wf = true → decode (encode i) = .instr i

/-- A word that decodes to an instruction is that instruction's word, but for the bits its row does not examine
(R76 after D1, R80 after C5). -/
def Obligations.EncodeOfDecodeIsExaminedBits : Prop :=
  ∀ (op : Word) (i : Instr), decode op = .instr i → i.wf = true ∧ encode i = op &&& i.examinedBits

/-- The decoder and R81's table of masks agree on every word: a word decodes to an instruction of the one row it selects,
and is unknown exactly when it selects none. The masks of 00E0 and 00EE are the spec's D1, those of 5XY0 and 9XY0 its C5. -/
def Obligations.DecoderIsTheOpcodeMap : Prop :=
  opcodeTable.length = 34 ∧ ∀ op : Word,
    (∀ i, decode op = .instr i → i.row ∈ opcodeTable ∧ i.row.selects op = true) ∧
    (∀ r ∈ opcodeTable, r.selects op = true → ∃ i, decode op = .instr i ∧ i.row = r) ∧
    (decode op = .unknown op ↔ ∀ r ∈ opcodeTable, r.selects op = false) ∧
    (∀ r ∈ opcodeTable, ∀ r' ∈ opcodeTable, r.selects op = true → r'.selects op = true → r = r')

/-- The unknown-opcode space, by its nibbles (R83, which the spec derives). -/
def Obligations.UnknownSpaceIsExact : Prop :=
  ∀ op : Word, decode op = .unknown op ↔
    (majorNibble op = 0x0 ∧ fieldNN op ∉ [0xE0#8, 0xEE#8]) ∨
    (majorNibble op = 0x8 ∧ (fieldN op).val ∈ [0x8, 0x9, 0xA, 0xB, 0xC, 0xD, 0xF]) ∨
    (majorNibble op = 0xE ∧ fieldNN op ∉ [0x9E#8, 0xA1#8]) ∨
    (majorNibble op = 0xF ∧
      fieldNN op ∉ [0x07#8, 0x0A#8, 0x15#8, 0x18#8, 0x1E#8, 0x29#8, 0x33#8, 0x55#8, 0x65#8])

/-! ## The Tick (30_encoding.md R82-R87, 20_memory.md R51, R52) -/

/-- A step whose next host action is a Tick, or that has none (then with a free cycleCounter, log 8 and 9), runs the
instruction the two bytes at pc decode to, on the state with the seed stored, and then ends the Tick. -/
def Obligations.StepRunsDecodedInstruction : Prop :=
  ∀ (s s' : State) (cycleCounter : Nat) (i : Instr),
    ((∃ rest, s.host = .tick cycleCounter :: rest ∧ s' = { s with host := rest }) ∨
      (s.host = [] ∧ cycleCounter = Config.freeCycleCounter s.freeIndex ∧ s' = { s with freeIndex := s.freeIndex + 1 })) →
    s.pc.toNat ≤ 0xFFE →
    decodeBytes (s.readByte s.pc.toNat) (s.readByte (s.pc.toNat + 1)) = .instr i →
    (∀ t, exec i (s'.setSeed (BitVec.ofNat 8 cycleCounter)) = .next t → step s = .next t.endTick) ∧
    (∀ k, exec i (s'.setSeed (BitVec.ofNat 8 cycleCounter)) = .fault (.raised k) →
      step s = .fault (.faulted k
        (some (opcodeOfBytes (s.readByte s.pc.toNat) (s.readByte (s.pc.toNat + 1)))) s'))

/-- After every execute that did not fault: pc advances by 2, then DT and ST each step down unless 0, then the press flag
is cleared and lastKey left; nothing else changes (R84, R270, R272). -/
def Obligations.TickEndsWithAdvanceTimersLatch : Prop :=
  ∀ (cycleCounter : Nat) (s t : State) (op : Word), s.fetch = .ok op →
    execDecoded (decode op) (s.setSeed (BitVec.ofNat 8 cycleCounter)) = .next t →
    ∃ u, tick cycleCounter s = .next u ∧ u.pc = t.pc + 2 ∧
      (t.DT ≠ 0 → u.DT = t.DT - 1) ∧ (t.DT = 0 → u.DT = 0) ∧ (t.ST ≠ 0 → u.ST = t.ST - 1) ∧ (t.ST = 0 → u.ST = 0) ∧
      u.keyPressedThisTick = false ∧ u.lastKey = t.lastKey ∧
      u = { t with pc := u.pc, DT := u.DT, ST := u.ST, keyPressedThisTick := u.keyPressedThisTick }

/-- An unknown opcode emits one log event, then pc advances by 2, and the Tick goes on to the timers and the latch; no
register, memory, stack, key or framebuffer write (R82). That the trace grows by that event alone is the model's choice
(log 11, the spec's D19), and the seed's width is the spec's D14. -/
def Obligations.UnknownOpcodeIsNoOpAdvance : Prop :=
  ∀ (cycleCounter : Nat) (s : State) (op : Word), s.fetch = .ok op → decode op = .unknown op →
    tick cycleCounter s = .next { s with
      rndSeed := BitVec.ofNat 8 cycleCounter
      outputs := s.outputs ++ [.logUnknownOpcode op]
      pc := s.pc + 2
      DT := if s.DT = 0 then 0 else s.DT - 1
      ST := if s.ST = 0 then 0 else s.ST - 1
      keyPressedThisTick := false }

/-- Fetch reads two consecutive bytes big-endian at any pc up to 0xFFE, odd ones too, and a Tick at a higher pc faults
with that pc and no opcode recorded (R51, R52; the fault is the spec's D7). -/
def Obligations.FetchIsBigEndianOrFaults : Prop :=
  ∀ s : State,
    (s.pc.toNat ≤ 0xFFE → ∃ op, s.fetch = .ok op ∧
      op.toNat = (s.readByte s.pc.toNat).toNat * 256 + (s.readByte (s.pc.toNat + 1)).toNat) ∧
    (0xFFE < s.pc.toNat → ∀ cycleCounter,
      tick cycleCounter s = .fault (.faulted (.fetchOutOfRange s.pc) none s))

/-- A Tick ends in a next state or in a recorded fault of the closed list, and the interpreter never refuses an opcode:
every word is an instruction or the unknown opcode (R13). So no step, whatever the host's action, is refused. -/
def Obligations.NoStepIsRefused : Prop :=
  (∀ op : Word, (∃ i, decode op = .instr i) ∨ decode op = .unknown op) ∧
  (∀ (cycleCounter : Nat) (s : State),
    (∃ t, tick cycleCounter s = .next t) ∨ (∃ k op, tick cycleCounter s = .fault (.faulted k op s))) ∧
  (∀ (s : State) (r : Refusal), step s ≠ .refused r)

/-- The closed list of faults with their causes (R251): which instruction, on which address, pixel or stack depth. The
conditions are the spec's D7-D11. -/
def Obligations.FaultsHaveListedCauses : Prop :=
  ∀ (cycleCounter : Nat) (s : State) (f : Fault), tick cycleCounter s = .fault f →
    (0xFFE < s.pc.toNat ∧ f = .faulted (.fetchOutOfRange s.pc) none s) ∨
    ∃ op i, s.fetch = .ok op ∧ decode op = .instr i ∧
      ((∃ a, 0xFFF < a ∧ f = .faulted (.memoryOutOfRange a) (some op) s ∧
          ((∃ x y n, i = .drw x y n ∧ ∃ k, k < n.val ∧ a = s.effAddr k) ∨
            (∃ x, i = .ldB x ∧ ∃ k, k ≤ 2 ∧ a = s.effAddr k) ∨
            (∃ x, i = .storeRegs x ∧ ∃ k, k ≤ x.val ∧ a = s.effAddr k) ∨
            (∃ x, i = .loadRegs x ∧ ∃ k, k ≤ x.val ∧ a = s.effAddr k))) ∨
        (∃ p, 2047 < p ∧ f = .faulted (.framebufferOutOfRange p) (some op) s ∧
          ∃ x y n, i = .drw x y n ∧ ∃ row col, row < n.val ∧ col < 8 ∧
            p = pixelIndex (s.getV x) (s.getV y) row col) ∨
        (s.sp.val = 16 ∧ f = .faulted .stackOverflow (some op) s ∧ ∃ nnn, i = .call nnn) ∨
        (s.sp.val = 0 ∧ f = .faulted .stackUnderflow (some op) s ∧ i = .ret))

/-- Where each instruction leaves pc, measured from its own address (R25, which the spec derives; BNNN's mode names are
its D2, the unmasked sum its D13). -/
def Obligations.PcAfterTickFollowsTable : Prop :=
  ∀ (cycleCounter : Nat) (s t : State) (op : Word) (i : Instr), s.fetch = .ok op → decode op = .instr i →
    tick cycleCounter s = .next t → t.pc = pcAfterTick i s

/-! ## Invariants and whole-machine rules -/

/-- Every step keeps the invariant: memory and ROM copy canonical, pixels 0 or 1 (R36, R46, R39; the canonical form is the
model's, log 14). -/
def Obligations.StepKeepsInvariant : Prop :=
  ∀ s t : State, s.Inv → step s = .next t → t.Inv

/-- The state after reset meets the invariant: memory and ROM copy canonical, pixels 0 or 1 (the canonical form is the
model's, log 14). -/
def Obligations.ResetStateMeetsInvariant : Prop := State.reset.Inv

/-- A Tick changes nothing that only the host changes: the ROM copy, the key states, the last key and the mode flags
(R33, R34, R39, R46, R272). The clauses on config, host and freeIndex speak of fields that are the model's own (log 7,
log 8, log 9). -/
def Obligations.TickLeavesHostOwnedState : Prop :=
  ∀ (cycleCounter : Nat) (s t : State), tick cycleCounter s = .next t →
    t.romCopy = s.romCopy ∧ t.key = s.key ∧ t.lastKey = s.lastKey ∧ t.shiftUsesVY = s.shiftUsesVY ∧
    t.jumpAddsVX = s.jumpAddsVX ∧ t.loadStoreIncrementsI = s.loadStoreIncrementsI ∧ t.config = s.config ∧
    t.host = s.host ∧ t.freeIndex = s.freeIndex

/-- "Every Tick writes it before it fetches, so its value before a Tick can never be observed" (R40): a Tick's next state
does not depend on the seed before it. The width of the seed is the spec's D14. -/
def Obligations.SeedBeforeTickIsUnobservable : Prop :=
  ∀ (cycleCounter : Nat) (s t : State) (v : Byte), tick cycleCounter s = .next t →
    tick cycleCounter { s with rndSeed := v } = .next t ∧ t.rndSeed.toNat = cycleCounter % 256

/-- "`lastKey` is meaningful only while `keyPressedThisTick` is true" (R35; D24): with no press, a Tick does the same
whatever lastKey is, and keeps it. -/
def Obligations.LastKeyIsUnobservableWithoutPress : Prop :=
  ∀ (cycleCounter : Nat) (s t : State) (k : Fin 16), s.keyPressedThisTick = false → tick cycleCounter s = .next t →
    tick cycleCounter { s with lastKey := k } = .next { t with lastKey := k }

/-- A byte written is the byte read, at its address, and every other address reads as before; outside 0x000-0xFFF both
fault (R53, R54, R62; the fault is the spec's D8). -/
def Obligations.WriteThenRead : Prop :=
  ∀ (s : State) (a : Nat) (v : Byte),
    (a ≤ 0xFFF → ∃ t, s.memWrite a v = .ok t ∧ t.memRead a = .ok v ∧
      (∀ b, b ≠ a → b ≤ 0xFFF → t.memRead b = s.memRead b) ∧ t = { s with mem := t.mem }) ∧
    (0xFFF < a → s.memWrite a v = .error (.memoryOutOfRange a) ∧ s.memRead a = .error (.memoryOutOfRange a))

/-- The two hangs (R313): a 1NNN at its own address, and FX0A with no press, run for ever: from such a state every sequence
of Ticks completes and leaves pc where it is. -/
def Obligations.HangsRunForEver : Prop :=
  ∀ (s : State) (op : Word), s.fetch = .ok op →
    ((∃ nnn : Addr, decode op = .instr (.jp nnn) ∧ s.pc = nnn.setWidth 16) ∨
      (∃ x, decode op = .instr (.ldVxK x) ∧ s.keyPressedThisTick = false)) →
    ∀ cycleCounters : List Nat, ∃ t, TicksTo s cycleCounters t ∧ t.pc = s.pc

/-! ## Display (40_display.md) -/

/-- 00E0: every pixel 0, nothing else changed (R101; the encoding's ignored nibble is the spec's D1). -/
def Obligations.ClsClearsEveryPixel : Prop :=
  Selects 0x00E0 0xF0FF (fun _ => .cls) ∧ ∀ s : State,
    ∃ t, exec .cls s = .next t ∧ (∀ p, t.pixel p = 0) ∧ t = { s with fb := t.fb } ∧ SameMemory s t

/-- DXYN where every row is in memory and every cell in the framebuffer: each pixel some set sprite bit meets is flipped,
the others are kept, VF is the collision flag, the coordinates are the original registers (x or y = F included), nothing
else changes (R102, R105; the bit order is the spec's D5). -/
def Obligations.DrwXorsSprite : Prop :=
  Selects 0xD000 0xF000 (fun op => .drw (fieldX op) (fieldY op) (fieldN op)) ∧
  ∀ (s : State) (x y : Reg) (n : Fin 16),
    (∀ row, row < n.val → s.rowFits (s.getV x) (s.getV y) row) →
    ∃ t, exec (.drw x y n) s = .next t ∧
      (∀ p, t.pixel p =
        if ∃ row, row < n.val ∧ ∃ col, col < 8 ∧
            ((s.getV x).toNat + col) + ((s.getV y).toNat + row) * 64 = p ∧
            (s.readByte (s.I.toNat + row)).getLsbD (7 - col) = true
        then s.pixel p ^^^ 1 else s.pixel p) ∧
      t.getV VF = (if s.spriteCollides (s.getV x) (s.getV y) n.val then 1 else 0) ∧
      SameRegsExcept s t [VF] ∧ t = { s with fb := t.fb, V := t.V } ∧ SameMemory s t

/-- DXYN faults at the first row that does not fit: at its read if that is out of memory, else at its first cell past the
framebuffer, whether or not that cell's bit is 1 (R104, R256; the spec's D8, D9). -/
def Obligations.DrwFaultsAtFirstBadCell : Prop :=
  ∀ (s : State) (x y : Reg) (n : Fin 16) (row : Nat), row < n.val →
    (∀ r, r < row → s.rowFits (s.getV x) (s.getV y) r) →
    (0xFFF < s.effAddr row → exec (.drw x y n) s = .fault (.raised (.memoryOutOfRange (s.effAddr row)))) ∧
    (∀ col, col < 8 → s.effAddr row ≤ 0xFFF →
      (∀ c, c < col → pixelIndex (s.getV x) (s.getV y) row c < 2048) →
      2047 < pixelIndex (s.getV x) (s.getV y) row col →
      exec (.drw x y n) s = .fault (.raised (.framebufferOutOfRange (pixelIndex (s.getV x) (s.getV y) row col))))

/-- Drawing the same sprite twice at the same place restores every pixel, and the second draw reports VF = 1 exactly when
the first turned some pixel on (R106 after R102, R105; log 20). -/
def Obligations.DrwTwiceRestores : Prop :=
  ∀ (s : State) (x y : Reg) (n : Fin 16), x ≠ VF → y ≠ VF →
    (∀ row, row < n.val → s.rowFits (s.getV x) (s.getV y) row) →
    ∃ t u, exec (.drw x y n) s = .next t ∧ exec (.drw x y n) t = .next u ∧ (∀ p, u.pixel p = s.pixel p) ∧
      (u.getV VF = 0 ∨ u.getV VF = 1) ∧
      (u.getV VF = 1 ↔ ∃ row, row < n.val ∧ ∃ col, col < 8 ∧ spriteBit (s.readByte (s.effAddr row)) col = true ∧
        s.pixel (pixelIndex (s.getV x) (s.getV y) row col) = 0)

/-! ## Control flow (41_control_flow.md) -/

/-- 00EE: the last entry in use goes to pc and the entry is not cleared; with none it faults (R121; D1, D10, D11). -/
def Obligations.RetPopsOrUnderflows : Prop :=
  Selects 0x00EE 0xF0FF (fun _ => .ret) ∧ ∀ s : State,
    (0 < s.sp.val → ∃ t, exec .ret s = .next t ∧ t.sp.val = s.sp.val - 1 ∧
      s.stack[s.sp.val - 1]? = some t.pc ∧ t = { s with sp := t.sp, pc := t.pc } ∧ SameMemory s t) ∧
    (s.sp.val = 0 → exec .ret s = .fault (.raised .stackUnderflow))

/-- 1NNN: pc becomes nnn - 2 modulo 2^16, which the shared advance takes to nnn; nothing else changes (R122). -/
def Obligations.JpJumpsToAddress : Prop :=
  Selects 0x1000 0xF000 (fun op => .jp (fieldNNN op)) ∧ ∀ (s : State) (nnn : Addr),
    ∃ t, exec (.jp nnn) s = .next t ∧ t.pc = nnn.setWidth 16 - 2 ∧ (t.pc + 2).toNat = nnn.toNat ∧
      t = { s with pc := t.pc } ∧ SameMemory s t

/-- 2NNN: the call's own address is pushed and pc becomes nnn - 2; with 16 entries in use it faults (R123; D10, D11). -/
def Obligations.CallPushesOwnAddressOrOverflows : Prop :=
  Selects 0x2000 0xF000 (fun op => .call (fieldNNN op)) ∧ ∀ (s : State) (nnn : Addr),
    (s.sp.val < 16 → ∃ t, exec (.call nnn) s = .next t ∧ t.sp.val = s.sp.val + 1 ∧
      t.stack[s.sp.val]? = some s.pc ∧ (∀ k : Fin 16, k.val ≠ s.sp.val → t.stack[k.val] = s.stack[k.val]) ∧
      t.pc = nnn.setWidth 16 - 2 ∧ t = { s with stack := t.stack, sp := t.sp, pc := t.pc } ∧ SameMemory s t) ∧
    (s.sp.val = 16 → exec (.call nnn) s = .fault (.raised .stackOverflow))

/-- 3XNN, 4XNN, 5XY0, 9XY0: pc goes 2 further when the condition holds, and stays otherwise; nothing else changes
(R124-R127). That 5XY0 and 9XY0 ignore their low nibble is the spec's resolution C5 (log 19). -/
def Obligations.SkipsCompareOperands : Prop :=
  Selects 0x3000 0xF000 (fun op => .seImm (fieldX op) (fieldNN op)) ∧
  Selects 0x4000 0xF000 (fun op => .sneImm (fieldX op) (fieldNN op)) ∧
  Selects 0x5000 0xF000 (fun op => .seReg (fieldX op) (fieldY op)) ∧
  Selects 0x9000 0xF000 (fun op => .sneReg (fieldX op) (fieldY op)) ∧
  ∀ (s : State) (x y : Reg) (nn : Byte),
    exec (.seImm x nn) s = .next { s with pc := if (s.getV x).toNat = nn.toNat then s.pc + 2 else s.pc } ∧
    exec (.sneImm x nn) s = .next { s with pc := if (s.getV x).toNat ≠ nn.toNat then s.pc + 2 else s.pc } ∧
    exec (.seReg x y) s = .next { s with pc := if (s.getV x).toNat = (s.getV y).toNat then s.pc + 2 else s.pc } ∧
    exec (.sneReg x y) s = .next { s with pc := if (s.getV x).toNat ≠ (s.getV y).toNat then s.pc + 2 else s.pc }

/-- BNNN: pc becomes nnn + V0 - 2 in mode A and nnn + Vx - 2 in mode B, so the shared advance lands on the unmasked sum
(R128; the flag's polarity is the spec's D2, the unmasked target its D13). -/
def Obligations.BnnnAddsSelectedRegister : Prop :=
  Selects 0xB000 0xF000 (fun op => .jpOff (fieldNNN op) (fieldX op)) ∧ ∀ (s : State) (nnn : Addr) (x : Reg),
    ∃ t, exec (.jpOff nnn x) s = .next t ∧
      (s.jumpAddsVX = false → (t.pc + 2).toNat = nnn.toNat + (s.getV 0).toNat) ∧
      (s.jumpAddsVX = true → (t.pc + 2).toNat = nnn.toNat + (s.getV x).toNat) ∧
      t = { s with pc := t.pc } ∧ SameMemory s t

/-! ## Arithmetic and logic (42_alu.md) -/

/-- 6XNN: V[x] is nn, x = F included, and nothing else changes (R151). -/
def Obligations.LdImmLoadsImmediate : Prop :=
  Selects 0x6000 0xF000 (fun op => .ldImm (fieldX op) (fieldNN op)) ∧ ∀ (s : State) (x : Reg) (nn : Byte),
    ∃ t, exec (.ldImm x nn) s = .next t ∧ t.getV x = nn ∧ SameRegsExcept s t [x] ∧ t = { s with V := t.V } ∧
      SameMemory s t

/-- 7XNN: V[x] is the sum modulo 256, no flag is set, and nothing else changes (R152). -/
def Obligations.AddImmWrapsWithoutFlag : Prop :=
  Selects 0x7000 0xF000 (fun op => .addImm (fieldX op) (fieldNN op)) ∧ ∀ (s : State) (x : Reg) (nn : Byte),
    ∃ t, exec (.addImm x nn) s = .next t ∧ (t.getV x).toNat = ((s.getV x).toNat + nn.toNat) % 256 ∧
      SameRegsExcept s t [x] ∧ t = { s with V := t.V } ∧ SameMemory s t

/-- 8XY0: V[x] is the original V[y], and nothing else changes; x = y leaves the state unchanged (R153). -/
def Obligations.LdRegCopies : Prop :=
  Selects 0x8000 0xF00F (fun op => .ldReg (fieldX op) (fieldY op)) ∧ ∀ (s : State) (x y : Reg),
    ∃ t, exec (.ldReg x y) s = .next t ∧ t.getV x = s.getV y ∧ SameRegsExcept s t [x] ∧ t = { s with V := t.V } ∧
      SameMemory s t ∧ (x = y → t = s)

/-- 8XY1, 8XY2, 8XY3: V[x] is the bitwise OR, AND, XOR of the original registers, and VF is not reset (R154-R156, the
kept VF being the spec's inference). -/
def Obligations.LogicLeavesFlag : Prop :=
  Selects 0x8001 0xF00F (fun op => .orReg (fieldX op) (fieldY op)) ∧
  Selects 0x8002 0xF00F (fun op => .andReg (fieldX op) (fieldY op)) ∧
  Selects 0x8003 0xF00F (fun op => .xorReg (fieldX op) (fieldY op)) ∧
  ∀ (s : State) (x y : Reg),
    (∃ t, exec (.orReg x y) s = .next t ∧ (∀ k, (t.getV x).getLsbD k = ((s.getV x).getLsbD k || (s.getV y).getLsbD k)) ∧
      SameRegsExcept s t [x] ∧ t = { s with V := t.V } ∧ SameMemory s t) ∧
    (∃ t, exec (.andReg x y) s = .next t ∧ (∀ k, (t.getV x).getLsbD k = ((s.getV x).getLsbD k && (s.getV y).getLsbD k)) ∧
      SameRegsExcept s t [x] ∧ t = { s with V := t.V } ∧ SameMemory s t) ∧
    (∃ t, exec (.xorReg x y) s = .next t ∧ (∀ k, (t.getV x).getLsbD k = ((s.getV x).getLsbD k ^^ (s.getV y).getLsbD k)) ∧
      SameRegsExcept s t [x] ∧ t = { s with V := t.V } ∧ SameMemory s t)

/-- 8XY4: the sum modulo 256 and, written last, the carry, which is 1 exactly when the sum passes 255; with x = F the
carry wins (R150, R157; that r < a says the sum passes 255 is the spec's inference). -/
def Obligations.AddRegSetsCarry : Prop :=
  Selects 0x8004 0xF00F (fun op => .addReg (fieldX op) (fieldY op)) ∧ ∀ (s : State) (x y : Reg),
    ∃ t, exec (.addReg x y) s = .next t ∧
      (x ≠ VF → (t.getV x).toNat = ((s.getV x).toNat + (s.getV y).toNat) % 256) ∧
      t.getV VF = (if 255 < (s.getV x).toNat + (s.getV y).toNat then 1 else 0) ∧
      SameRegsExcept s t [x, VF] ∧ t = { s with V := t.V } ∧ SameMemory s t

/-- 8XY5: V[x] - V[y] modulo 256 and, written last, 1 when V[x] > V[y] strictly, else 0; with x = F the flag wins
(R158). -/
def Obligations.SubSetsStrictFlag : Prop :=
  Selects 0x8005 0xF00F (fun op => .sub (fieldX op) (fieldY op)) ∧ ∀ (s : State) (x y : Reg),
    ∃ t, exec (.sub x y) s = .next t ∧
      (x ≠ VF → ((t.getV x).toNat : Int) = ((s.getV x).toNat - (s.getV y).toNat : Int) % 256) ∧
      t.getV VF = (if (s.getV x).toNat > (s.getV y).toNat then 1 else 0) ∧
      SameRegsExcept s t [x, VF] ∧ t = { s with V := t.V } ∧ SameMemory s t

/-- 8XY7: V[y] - V[x] modulo 256 and, written last, 1 when V[y] >= V[x], else 0; with x = F the flag wins (R160). -/
def Obligations.SubnSetsFlag : Prop :=
  Selects 0x8007 0xF00F (fun op => .subn (fieldX op) (fieldY op)) ∧ ∀ (s : State) (x y : Reg),
    ∃ t, exec (.subn x y) s = .next t ∧
      (x ≠ VF → ((t.getV x).toNat : Int) = ((s.getV y).toNat - (s.getV x).toNat : Int) % 256) ∧
      t.getV VF = (if (s.getV y).toNat ≥ (s.getV x).toNat then 1 else 0) ∧
      SameRegsExcept s t [x, VF] ∧ t = { s with V := t.V } ∧ SameMemory s t

/-- 8XY6 and 8XYE: the value shifted is V[y] when shiftUsesVY, else V[x]; V[x] is it shifted by one, and VF, written last,
the bit shifted out (R159, R161; the flag's name and polarity are the spec's D2). -/
def Obligations.ShiftsSetShiftedOutBit : Prop :=
  Selects 0x8006 0xF00F (fun op => .shr (fieldX op) (fieldY op)) ∧
  Selects 0x800E 0xF00F (fun op => .shl (fieldX op) (fieldY op)) ∧
  ∀ (s : State) (x y : Reg) (v : Nat), v = (if s.shiftUsesVY then s.getV y else s.getV x).toNat →
    (∃ t, exec (.shr x y) s = .next t ∧ (x ≠ VF → (t.getV x).toNat = v / 2) ∧ (t.getV VF).toNat = v % 2 ∧
      SameRegsExcept s t [x, VF] ∧ t = { s with V := t.V } ∧ SameMemory s t) ∧
    (∃ t, exec (.shl x y) s = .next t ∧ (x ≠ VF → (t.getV x).toNat = v * 2 % 256) ∧ (t.getV VF).toNat = v / 128 ∧
      SameRegsExcept s t [x, VF] ∧ t = { s with V := t.V } ∧ SameMemory s t)

/-- CXNN: V[x] is the seed AND nn, and in a Tick the seed is its cycleCounter mod 256; no flag, nothing else changed
(R162). -/
def Obligations.RndMasksCycleCounter : Prop :=
  Selects 0xC000 0xF000 (fun op => .rnd (fieldX op) (fieldNN op)) ∧
  (∀ (s : State) (x : Reg) (nn : Byte),
    ∃ t, exec (.rnd x nn) s = .next t ∧ t.getV x = s.rndSeed &&& nn ∧ SameRegsExcept s t [x] ∧
      t = { s with V := t.V } ∧ SameMemory s t) ∧
  ∀ (s : State) (op : Word) (x : Reg) (nn : Byte) (cycleCounter : Nat), s.fetch = .ok op → decode op = .instr (.rnd x nn) →
    ∃ t, tick cycleCounter s = .next t ∧ (t.getV x).toNat = cycleCounter % 256 &&& nn.toNat

/-! ## Index register and memory (43_index_memory.md) -/

/-- ANNN: I is nnn, zero-extended, so at most 0xFFF; nothing else changes (R191). -/
def Obligations.LdISetsIndex : Prop :=
  Selects 0xA000 0xF000 (fun op => .ldI (fieldNNN op)) ∧ ∀ (s : State) (nnn : Addr),
    ∃ t, exec (.ldI nnn) s = .next t ∧ t.I.toNat = nnn.toNat ∧ t.I.toNat ≤ 0xFFF ∧ t = { s with I := t.I } ∧
      SameMemory s t

/-- FX1E: I + V[x] modulo 2^16, unmasked, and VF is not changed (R192; the wrap is the spec's D12). -/
def Obligations.AddIWrapsUnmasked : Prop :=
  Selects 0xF01E 0xF0FF (fun op => .addI (fieldX op)) ∧ ∀ (s : State) (x : Reg),
    ∃ t, exec (.addI x) s = .next t ∧ t.I.toNat = (s.I.toNat + (s.getV x).toNat) % 65536 ∧ t = { s with I := t.I } ∧
      SameMemory s t

/-- FX29: I is 0x050 + 5 * V[x] when V[x] is at most 15, and unchanged otherwise; nothing else changes (R193). -/
def Obligations.LdFPointsAtGlyph : Prop :=
  Selects 0xF029 0xF0FF (fun op => .ldF (fieldX op)) ∧ ∀ (s : State) (x : Reg),
    ∃ t, exec (.ldF x) s = .next t ∧
      ((s.getV x).toNat ≤ 15 → t.I.toNat = 0x050 + 5 * (s.getV x).toNat) ∧ (15 < (s.getV x).toNat → t.I = s.I) ∧
      t = { s with I := t.I } ∧ SameMemory s t

/-- FX33: the hundreds, tens and ones of V[x] at I, I+1, I+2, every other byte and I unchanged; it faults at the first of
the three addresses above 0xFFF (R194; the digit order is the spec's D6, the fault its D8). -/
def Obligations.LdBStoresDigits : Prop :=
  Selects 0xF033 0xF0FF (fun op => .ldB (fieldX op)) ∧ ∀ (s : State) (x : Reg),
    (s.effAddr 2 ≤ 0xFFF → ∃ t, exec (.ldB x) s = .next t ∧
      (t.readByte (s.effAddr 0)).toNat = (s.getV x).toNat / 100 ∧
      (t.readByte (s.effAddr 1)).toNat = (s.getV x).toNat / 10 % 10 ∧
      (t.readByte (s.effAddr 2)).toNat = (s.getV x).toNat % 10 ∧
      (∀ a, (a < s.effAddr 0 ∨ s.effAddr 2 < a) → t.readByte a = s.readByte a) ∧ t = { s with mem := t.mem }) ∧
    (∀ k, k ≤ 2 → 0xFFF < s.effAddr k → (∀ j, j < k → s.effAddr j ≤ 0xFFF) →
      exec (.ldB x) s = .fault (.raised (.memoryOutOfRange (s.effAddr k))))

/-- FX55: V[i] at I + i for i in 0..x, every other byte and every register unchanged, I moved by x (not x + 1) in increment
mode; it faults at the first address above 0xFFF (R195; D2, D8, D12). -/
def Obligations.StoreRegsWritesBlock : Prop :=
  Selects 0xF055 0xF0FF (fun op => .storeRegs (fieldX op)) ∧ ∀ (s : State) (x : Reg),
    (s.effAddr x.val ≤ 0xFFF → ∃ t, exec (.storeRegs x) s = .next t ∧
      (∀ i : Reg, i.val ≤ x.val → t.readByte (s.effAddr i.val) = s.getV i) ∧
      (∀ a, (a < s.effAddr 0 ∨ s.effAddr x.val < a) → t.readByte a = s.readByte a) ∧
      (s.loadStoreIncrementsI = false → t.I = s.I) ∧
      (s.loadStoreIncrementsI = true → t.I.toNat = (s.I.toNat + x.val) % 65536) ∧
      t = { s with mem := t.mem, I := t.I }) ∧
    (∀ k, k ≤ x.val → 0xFFF < s.effAddr k → (∀ j, j < k → s.effAddr j ≤ 0xFFF) →
      exec (.storeRegs x) s = .fault (.raised (.memoryOutOfRange (s.effAddr k))))

/-- FX65: V[i] is the byte at I + i for i in 0..x, VF as data when x = F, the other registers and memory unchanged, I moved
by x in increment mode; it faults at the first address above 0xFFF (R196; D2, D8, D12). -/
def Obligations.LoadRegsReadsBlock : Prop :=
  Selects 0xF065 0xF0FF (fun op => .loadRegs (fieldX op)) ∧ ∀ (s : State) (x : Reg),
    (s.effAddr x.val ≤ 0xFFF → ∃ t, exec (.loadRegs x) s = .next t ∧
      (∀ i : Reg, i.val ≤ x.val → t.getV i = s.readByte (s.effAddr i.val)) ∧
      (∀ i : Reg, x.val < i.val → t.getV i = s.getV i) ∧
      (s.loadStoreIncrementsI = false → t.I = s.I) ∧
      (s.loadStoreIncrementsI = true → t.I.toNat = (s.I.toNat + x.val) % 65536) ∧
      t = { s with V := t.V, I := t.I } ∧ SameMemory s t) ∧
    (∀ k, k ≤ x.val → 0xFFF < s.effAddr k → (∀ j, j < k → s.effAddr j ≤ 0xFFF) →
      exec (.loadRegs x) s = .fault (.raised (.memoryOutOfRange (s.effAddr k))))

/-! ## Keys and timers (44_keys_timers.md) -/

/-- EX9E and EXA1: pc goes 2 further when key V[x] is pressed, respectively not pressed; a V[x] of 16 or more has no
effect in either; nothing else changes (R221, R222). -/
def Obligations.KeySkipsReadKeyState : Prop :=
  Selects 0xE09E 0xF0FF (fun op => .skp (fieldX op)) ∧ Selects 0xE0A1 0xF0FF (fun op => .sknp (fieldX op)) ∧
  ∀ (s : State) (x : Reg),
    (∀ k : Fin 16, (s.getV x).toNat = k.val →
      exec (.skp x) s = .next { s with pc := if s.key[k.val] = true then s.pc + 2 else s.pc } ∧
      exec (.sknp x) s = .next { s with pc := if s.key[k.val] = false then s.pc + 2 else s.pc }) ∧
    (16 ≤ (s.getV x).toNat → exec (.skp x) s = .next s ∧ exec (.sknp x) s = .next s)

/-- FX07: V[x] is DT as it was before this Tick's decrement; nothing else changes in the execute step (R223). -/
def Obligations.LdVxDTReadsDelayTimer : Prop :=
  Selects 0xF007 0xF0FF (fun op => .ldVxDT (fieldX op)) ∧ ∀ (s : State) (x : Reg),
    (∃ t, exec (.ldVxDT x) s = .next t ∧ t.getV x = s.DT ∧ SameRegsExcept s t [x] ∧ t = { s with V := t.V } ∧
      SameMemory s t) ∧
    ∀ (op : Word) (cycleCounter : Nat), s.fetch = .ok op → decode op = .instr (.ldVxDT x) →
      ∃ u, tick cycleCounter s = .next u ∧ u.getV x = s.DT ∧ u.DT = if s.DT = 0 then 0 else s.DT - 1

/-- FX0A: with a press since the last Tick, V[x] is the last key pressed; without one, pc steps back by 2, which the
shared advance cancels, and no register changes (R224; the last press winning is the spec's D15). -/
def Obligations.LdVxKWaitsForPress : Prop :=
  Selects 0xF00A 0xF0FF (fun op => .ldVxK (fieldX op)) ∧ ∀ (s : State) (x : Reg),
    (s.keyPressedThisTick = true → ∃ t, exec (.ldVxK x) s = .next t ∧ (t.getV x).toNat = s.lastKey.val ∧
      SameRegsExcept s t [x] ∧ t = { s with V := t.V } ∧ SameMemory s t) ∧
    (s.keyPressedThisTick = false → exec (.ldVxK x) s = .next { s with pc := s.pc - 2 })

/-- FX15 and FX18: the timer is V[x] after the execute step, and one less (or 0) after the Tick; nothing else changes in
the execute step (R225, R226; the value after the Tick is the spec's inference). -/
def Obligations.TimerLoadsAreDecrementedOnce : Prop :=
  Selects 0xF015 0xF0FF (fun op => .ldDTVx (fieldX op)) ∧ Selects 0xF018 0xF0FF (fun op => .ldSTVx (fieldX op)) ∧
  ∀ (s : State) (x : Reg),
    exec (.ldDTVx x) s = .next { s with DT := s.getV x } ∧ exec (.ldSTVx x) s = .next { s with ST := s.getV x } ∧
    ∀ (op : Word) (cycleCounter : Nat), s.fetch = .ok op →
      (decode op = .instr (.ldDTVx x) →
        ∃ u, tick cycleCounter s = .next u ∧ u.DT.toNat = (s.getV x).toNat - 1) ∧
      (decode op = .instr (.ldSTVx x) →
        ∃ u, tick cycleCounter s = .next u ∧ u.ST.toNat = (s.getV x).toNat - 1 ∧
          (u.soundOn = true ↔ 1 < (s.getV x).toNat))

/-! ## The host's actions (60_exceptions.md, 70_reset_and_hazards.md) -/

/-- SetKey: a key outside 0..15 changes nothing; else the key's state is recorded, and on a press transition the latch
flag and which key (R275-R277). What counts as a press transition, and that a release keeps the latch, is the spec's D15,
and that any integer may be given its D22 (log 19). -/
def Obligations.SetKeyRecordsPressTransition : Prop :=
  ∀ (s : State) (key : Int) (pressed : Bool),
    ((key < 0 ∨ 15 < key) → act (.setKey key pressed) s = .next s) ∧
    (∀ k : Fin 16, key = (k.val : Int) → ∃ t, act (.setKey key pressed) s = .next t ∧
      t.key[k.val] = pressed ∧ (∀ j : Fin 16, j ≠ k → t.key[j.val] = s.key[j.val]) ∧
      (pressed = true ∧ s.key[k.val] = false → t.keyPressedThisTick = true ∧ t.lastKey = k) ∧
      (¬(pressed = true ∧ s.key[k.val] = false) →
        t.keyPressedThisTick = s.keyPressedThisTick ∧ t.lastKey = s.lastKey) ∧
      t = { s with key := t.key, keyPressedThisTick := t.keyPressedThisTick, lastKey := t.lastKey })

/-- Each mode setter writes its flag and nothing else, and installing a logger has no effect on the state (R285, R286;
that a setter may be called between any two Ticks is the spec's D3). -/
def Obligations.ModeSettersWriteTheirFlagAlone : Prop :=
  ∀ (s : State) (b : Bool),
    act (.setShiftUsesVY b) s = .next { s with shiftUsesVY := b } ∧
    act (.setJumpAddsVX b) s = .next { s with jumpAddsVX := b } ∧
    act (.setLoadStoreIncrementsI b) s = .next { s with loadStoreIncrementsI := b } ∧
    act .setLogger s = .next s

/-- A step with a host action pending performs it and takes it off the list; actions never overlap (R287, log 8). -/
def Obligations.StepTakesNextHostAction : Prop :=
  ∀ (s : State) (a : HostAction) (rest : List HostAction), s.host = a :: rest → step s = act a { s with host := rest }

/-- The value of every piece of state, and of every byte of memory, after the host's Reset (R44, R291, R292; lastKey is the
spec's D24, the timers its open parameter D16, the font bytes D4). -/
def Obligations.ResetActionValues : Prop :=
  ∀ s : State, ∃ t, act .reset s = .next t ∧
    (∀ a, a < 0x050 → t.readByte a = s.readByte a) ∧
    (∀ j : Fin 80, t.readByte (0x050 + j.val) = s.config.fontSet[j.val]) ∧
    (∀ a, 0x0A0 ≤ a → a < 0x200 → t.readByte a = s.readByte a) ∧
    (∀ a, 0x200 ≤ a → a ≤ 0xFFF → t.readByte a = s.romCopy.load 0 a) ∧
    (∀ r, t.getV r = 0) ∧ t.I = 0 ∧ t.pc = 0x200 ∧ (∀ k : Fin 16, t.stack[k.val] = 0) ∧ t.sp = 0 ∧
    (∀ k : Fin 16, t.key[k.val] = false) ∧ t.keyPressedThisTick = false ∧ t.lastKey = 0 ∧ (∀ p, t.pixel p = 0) ∧
    (s.config.resetClearsTimers = true → t.DT = 0 ∧ t.ST = 0) ∧
    (s.config.resetClearsTimers = false → t.DT = s.DT ∧ t.ST = s.ST) ∧
    t.romCopy = s.romCopy ∧ t.rndSeed = s.rndSeed ∧ t.shiftUsesVY = s.shiftUsesVY ∧ t.jumpAddsVX = s.jumpAddsVX ∧
    t.loadStoreIncrementsI = s.loadStoreIncrementsI ∧ t.config = s.config ∧ t.host = s.host ∧
    t.freeIndex = s.freeIndex ∧ t.outputs = s.outputs

/-- Two Resets in a row leave the same state as one (R293, which the spec derives). -/
def Obligations.ResetIsIdempotent : Prop :=
  ∀ s : State, s.hostReset.hostReset = s.hostReset

/-- The state the model starts from has the values Reset gives, and is a fixed point of Reset (R44). -/
def Obligations.InitialStateIsReset : Prop :=
  State.reset.hostReset = State.reset ∧ State.reset.pc = 0x200 ∧ State.reset.sp = 0 ∧ State.reset.I = 0 ∧
  (∀ r, State.reset.getV r = 0) ∧ State.reset.romCopy = [] ∧ (∀ a, 0x200 ≤ a → State.reset.readByte a = 0)

/-- LoadROM of 1 to 3584 bytes copies them into the ROM copy at 0x200, keeps the rest of it, reports success, and changes
nothing else: live memory stays as it is (R294; the kept tail is the spec's D20). -/
def Obligations.LoadRomCopiesImageAlone : Prop :=
  ∀ (s : State) (bytes : List Byte), bytes.length ≠ 0 → bytes.length ≤ 3584 →
    ∃ t, act (.loadROM (some bytes)) s = .next t ∧
      (∀ j, (h : j < bytes.length) → t.romCopy.load 0 (0x200 + j) = bytes[j]) ∧
      (∀ a, (a < 0x200 ∨ 0x200 + bytes.length ≤ a) → t.romCopy.load 0 a = s.romCopy.load 0 a) ∧
      t = { s with romCopy := t.romCopy, outputs := s.outputs ++ [.loadResult true] }

/-- A failed LoadROM (null, empty, or over 3584 bytes) changes no state: only the Boolean result reports it, and it is no
fault (R295). -/
def Obligations.FailedLoadChangesNothing : Prop :=
  ∀ (s : State) (image : Option (List Byte)),
    (image = none ∨ ∃ bytes, image = some bytes ∧ (bytes.length = 0 ∨ 3584 < bytes.length)) →
    act (.loadROM image) s = .next { s with outputs := s.outputs ++ [.loadResult false] }

/-- LoadROMFromFile always resets: after LoadROM of the file's first 16384 bytes when it opens, and of the previous ROM copy
when it does not; a file over 3584 bytes fails (R296; the truncation is the spec's D21). -/
def Obligations.LoadFromFileAlwaysResets : Prop :=
  ∀ s : State,
    act (.loadROMFromFile none) s = .next { s.hostReset with outputs := s.outputs ++ [.loadResult false] } ∧
    ∀ bytes : List Byte,
      (bytes.length ≠ 0 ∧ bytes.length ≤ 3584 → ∃ t, act (.loadROM (some bytes)) s = .next t ∧
        act (.loadROMFromFile (some bytes)) s = .next t.hostReset) ∧
      (bytes.length = 0 ∨ 3584 < bytes.length →
        act (.loadROMFromFile (some bytes)) s = .next { s.hostReset with outputs := s.outputs ++ [.loadResult false] })

/-- The round trip (R297): LoadROM puts the bytes into the ROM copy; in every state whose ROM copy holds them, every step
that is no load keeps them there, whatever its Tick or host action does, and so does every run of such steps; and each
Reset puts the exact bytes at 0x200 on and keeps the ROM copy holding them, so that the next Reset does the same. The list
the step takes its action from is the model's own (log 8). -/
def Obligations.LoadedBytesSurviveEveryReset : Prop :=
  (∀ (s : State) (bytes : List Byte), bytes.length ≠ 0 → bytes.length ≤ 3584 →
    ∃ t, act (.loadROM (some bytes)) s = .next t ∧ t.romHolds bytes) ∧
  (∀ (s t : State) (bytes : List Byte), s.romHolds bytes → s.loadsNext = false → step s = .next t → t.romHolds bytes) ∧
  (∀ (s t : State) (bytes : List Byte), s.romHolds bytes → ReachesWithoutLoad s t → t.romHolds bytes) ∧
  (∀ (s : State) (bytes : List Byte), bytes.length ≤ 3584 → s.romHolds bytes →
    ∃ t, act .reset s = .next t ∧ t.romHolds bytes ∧ ∀ j, (h : j < bytes.length) → t.readByte (0x200 + j) = bytes[j])

/-- Resetting a machine with an empty ROM copy yields an all-NOP program area: 1792 no-op advances from 0x200, each logged,
and the next Tick faults on fetch at 0x1000 (R293, which the spec derives; the fault is D7). That the trace holds those
events alone is the model's choice (log 11, the spec's D19). -/
def Obligations.EmptyMachineRunsOffMemory : Prop :=
  ∀ (s : State) (cycleCounters : List Nat), s.romCopy = [] → cycleCounters.length = 1792 →
    ∃ t, TicksTo s.hostReset cycleCounters t ∧ t.pc = 0x1000 ∧ t.V = s.hostReset.V ∧ t.I = 0 ∧
      t.mem = s.hostReset.mem ∧ t.fb = s.hostReset.fb ∧ t.stack = s.hostReset.stack ∧ t.sp = 0 ∧
      t.outputs = s.outputs ++ List.replicate 1792 (.logUnknownOpcode 0x0000) ∧
      ∀ cycleCounter, tick cycleCounter t = .fault (.faulted (.fetchOutOfRange 0x1000) none t)
end

