-- ==== Sys2Proof/Laws/Decode.lean ====
section
/-! SUPPORT. Fields of a word as numbers, the words the encoder builds, and masks as fields. -/

namespace Sys2Proof

/-! ## Fields as numbers -/

theorem majorNibble_toNat (op : Word) : (majorNibble op).toNat = op.toNat / 4096 := by
  simp [majorNibble, BitVec.extractLsb'_toNat, Nat.shiftRight_eq_div_pow]; omega

theorem fieldX_val (op : Word) : (fieldX op).val = op.toNat / 256 % 16 := by
  simp [fieldX, Nat.shiftRight_eq_div_pow]

theorem fieldY_val (op : Word) : (fieldY op).val = op.toNat / 16 % 16 := by
  simp [fieldY, Nat.shiftRight_eq_div_pow]

theorem fieldN_val (op : Word) : (fieldN op).val = op.toNat % 16 := by
  simp [fieldN]

theorem lowNibble_toNat (op : Word) : (op.extractLsb' 0 4).toNat = op.toNat % 16 := by
  simp [BitVec.extractLsb'_toNat]

theorem fieldNN_toNat (op : Word) : (fieldNN op).toNat = op.toNat % 256 := by
  simp [fieldNN, BitVec.extractLsb'_toNat]

theorem fieldNNN_toNat (op : Word) : (fieldNNN op).toNat = op.toNat % 4096 := by
  simp [fieldNNN, BitVec.extractLsb'_toNat]

/-! ## The encoder's words as numbers -/

theorem append_toNat {m n : Nat} (a : BitVec m) (b : BitVec n) : (a ++ b).toNat = a.toNat * 2 ^ n + b.toNat := by
  rw [BitVec.toNat_append, ← Nat.shiftLeft_add_eq_or_of_lt b.isLt, Nat.shiftLeft_eq]

@[simp] theorem nibble_toNat (k : Fin 16) : (nibble k).toNat = k.val := rfl

theorem wordXYN_toNat (n0 x y n : BitVec 4) :
    (wordXYN n0 x y n).toNat = n0.toNat * 4096 + x.toNat * 256 + y.toNat * 16 + n.toNat := by
  unfold wordXYN
  rw [append_toNat, append_toNat, append_toNat]
  omega

theorem wordXNN_toNat (n0 x : BitVec 4) (nn : Byte) :
    (wordXNN n0 x nn).toNat = n0.toNat * 4096 + x.toNat * 256 + nn.toNat := by
  unfold wordXNN
  rw [append_toNat, append_toNat]
  omega

theorem wordNNN_toNat (n0 : BitVec 4) (nnn : Addr) : (wordNNN n0 nnn).toNat = n0.toNat * 4096 + nnn.toNat := by
  unfold wordNNN
  rw [append_toNat]
  omega

theorem opcodeOfBytes_toNat (b1 b2 : Byte) : (opcodeOfBytes b1 b2).toNat = b1.toNat * 256 + b2.toNat := by
  unfold opcodeOfBytes
  rw [append_toNat]
  omega

/-- A word laid out as two bytes and read back big-endian is that word. -/
theorem opcodeOfBytes_split (op : Word) : opcodeOfBytes (op.extractLsb' 8 8) (op.extractLsb' 0 8) = op := by
  apply BitVec.eq_of_toNat_eq
  rw [opcodeOfBytes_toNat]
  simp [BitVec.extractLsb'_toNat, Nat.shiftRight_eq_div_pow]; omega

/-! ## Fields of the encoder's words -/

@[simp] theorem majorNibble_wordXYN (n0 x y n : BitVec 4) : majorNibble (wordXYN n0 x y n) = n0 := by
  apply BitVec.eq_of_toNat_eq; rw [majorNibble_toNat, wordXYN_toNat]; omega
@[simp] theorem majorNibble_wordXNN (n0 x : BitVec 4) (nn : Byte) : majorNibble (wordXNN n0 x nn) = n0 := by
  apply BitVec.eq_of_toNat_eq; rw [majorNibble_toNat, wordXNN_toNat]; omega
@[simp] theorem majorNibble_wordNNN (n0 : BitVec 4) (nnn : Addr) : majorNibble (wordNNN n0 nnn) = n0 := by
  apply BitVec.eq_of_toNat_eq; rw [majorNibble_toNat, wordNNN_toNat]; omega
@[simp] theorem fieldX_wordXYN (n0 y n : BitVec 4) (x : Reg) : fieldX (wordXYN n0 (nibble x) y n) = x := by
  apply Fin.ext; rw [fieldX_val, wordXYN_toNat, nibble_toNat]; omega
@[simp] theorem fieldY_wordXYN (n0 x n : BitVec 4) (y : Reg) : fieldY (wordXYN n0 x (nibble y) n) = y := by
  apply Fin.ext; rw [fieldY_val, wordXYN_toNat, nibble_toNat]; omega
@[simp] theorem fieldN_wordXYN (n0 x y : BitVec 4) (n : Fin 16) : fieldN (wordXYN n0 x y (nibble n)) = n := by
  apply Fin.ext; rw [fieldN_val, wordXYN_toNat, nibble_toNat]; omega
@[simp] theorem lowNibble_wordXYN (n0 x y n : BitVec 4) : (wordXYN n0 x y n).extractLsb' 0 4 = n := by
  apply BitVec.eq_of_toNat_eq; rw [lowNibble_toNat, wordXYN_toNat]; omega
@[simp] theorem fieldX_wordXNN (n0 : BitVec 4) (x : Reg) (nn : Byte) : fieldX (wordXNN n0 (nibble x) nn) = x := by
  apply Fin.ext; rw [fieldX_val, wordXNN_toNat, nibble_toNat]; omega
@[simp] theorem fieldNN_wordXNN (n0 x : BitVec 4) (nn : Byte) : fieldNN (wordXNN n0 x nn) = nn := by
  apply BitVec.eq_of_toNat_eq; rw [fieldNN_toNat, wordXNN_toNat]; omega
@[simp] theorem fieldNNN_wordNNN (n0 : BitVec 4) (nnn : Addr) : fieldNNN (wordNNN n0 nnn) = nnn := by
  apply BitVec.eq_of_toNat_eq; rw [fieldNNN_toNat, wordNNN_toNat]; omega

/-! ## Masks as fields -/

theorem word_eq_XYN (op : Word) : op = wordXYN (majorNibble op) (nibble (fieldX op)) (nibble (fieldY op)) (nibble (fieldN op)) := by
  apply BitVec.eq_of_toNat_eq
  rw [wordXYN_toNat, majorNibble_toNat, nibble_toNat, nibble_toNat, nibble_toNat, fieldX_val, fieldY_val, fieldN_val]
  omega

/-- A mask of whole nibbles keeps or clears each nibble. -/
theorem wordXYN_and (a b c d a' b' c' d' : BitVec 4) :
    wordXYN a b c d &&& wordXYN a' b' c' d' = wordXYN (a &&& a') (b &&& b') (c &&& c') (d &&& d') := by
  unfold wordXYN
  rw [BitVec.and_append, BitVec.and_append, BitVec.and_append]

theorem nibble_and_15 (a : BitVec 4) : a &&& 15 = a := by revert a; decide
theorem nibble_and_0 (a : BitVec 4) : a &&& 0 = 0 := by revert a; decide

/-- A word under a mask of whole nibbles, as a number. -/
theorem and_mask_toNat (op : Word) (a b c d : BitVec 4) :
    (op &&& wordXYN a b c d).toNat = (majorNibble op &&& a).toNat * 4096 + (nibble (fieldX op) &&& b).toNat * 256 +
      (nibble (fieldY op) &&& c).toNat * 16 + (nibble (fieldN op) &&& d).toNat := by
  conv => lhs; rw [word_eq_XYN op, wordXYN_and]
  exact wordXYN_toNat _ _ _ _

theorem and_maskF000 (op : Word) : (op &&& 0xF000#16).toNat = op.toNat / 4096 * 4096 := by
  rw [show (0xF000#16 : Word) = wordXYN 15 0 0 0 from rfl, and_mask_toNat]
  simp only [nibble_and_15, nibble_and_0, majorNibble_toNat]
  simp

theorem and_maskF00F (op : Word) : (op &&& 0xF00F#16).toNat = op.toNat / 4096 * 4096 + op.toNat % 16 := by
  rw [show (0xF00F#16 : Word) = wordXYN 15 0 0 15 from rfl, and_mask_toNat]
  simp only [nibble_and_15, nibble_and_0, majorNibble_toNat, nibble_toNat, fieldN_val]
  simp only [BitVec.ofNat_eq_ofNat, BitVec.toNat_ofNat]
  omega

theorem and_maskF0FF (op : Word) : (op &&& 0xF0FF#16).toNat = op.toNat / 4096 * 4096 + op.toNat % 256 := by
  rw [show (0xF0FF#16 : Word) = wordXYN 15 0 15 15 from rfl, and_mask_toNat]
  simp only [nibble_and_15, nibble_and_0, majorNibble_toNat, nibble_toNat, fieldN_val, fieldY_val]
  simp only [BitVec.ofNat_eq_ofNat, BitVec.toNat_ofNat]
  omega

theorem and_maskFFF0 (op : Word) : (op &&& 0xFFF0#16).toNat = op.toNat / 16 * 16 := by
  rw [show (0xFFF0#16 : Word) = wordXYN 15 15 15 0 from rfl, and_mask_toNat]
  simp only [nibble_and_15, nibble_and_0, majorNibble_toNat, nibble_toNat, fieldX_val, fieldY_val]
  simp only [BitVec.ofNat_eq_ofNat, BitVec.toNat_ofNat]
  omega

/-! ## What a masked word says of its fields -/

theorem majorNibble_of_maskF000 {op : Word} {n : BitVec 4} (h : op &&& 0xF000#16 = wordXYN n 0 0 0) :
    majorNibble op = n := by
  apply BitVec.eq_of_toNat_eq
  have := congrArg BitVec.toNat h
  rw [and_maskF000, wordXYN_toNat] at this
  rw [majorNibble_toNat]; simp at this; omega

theorem fields_of_maskF00F {op : Word} {n k : BitVec 4} (h : op &&& 0xF00F#16 = wordXYN n 0 0 k) :
    majorNibble op = n ∧ op.extractLsb' 0 4 = k := by
  have := congrArg BitVec.toNat h
  rw [and_maskF00F, wordXYN_toNat] at this
  constructor <;> apply BitVec.eq_of_toNat_eq
  · rw [majorNibble_toNat]; simp at this; omega
  · rw [lowNibble_toNat]; simp at this; omega

theorem fields_of_maskF0FF {op : Word} {n : BitVec 4} {nn : Byte} (h : op &&& 0xF0FF#16 = wordXNN n 0 nn) :
    majorNibble op = n ∧ fieldNN op = nn := by
  have := congrArg BitVec.toNat h
  rw [and_maskF0FF, wordXNN_toNat] at this
  constructor <;> apply BitVec.eq_of_toNat_eq
  · rw [majorNibble_toNat]; simp at this; omega
  · rw [fieldNN_toNat]; simp at this; omega

end Sys2Proof
end

