-- ==== Sys2Proof/Laws/State.lean ====
section
/-! SUPPORT. One lemma per field per update of State, each by rfl, so that no later proof unfolds a record update. -/

namespace Sys2Proof.Machine

/-! ## setV -/

@[simp] theorem State.setV_mem (s : State) (i : Reg) (v : Byte) : (s.setV i v).mem = s.mem := rfl
@[simp] theorem State.setV_romCopy (s : State) (i : Reg) (v : Byte) : (s.setV i v).romCopy = s.romCopy := rfl
@[simp] theorem State.setV_V (s : State) (i : Reg) (v : Byte) : (s.setV i v).V = s.V.set i.val v := rfl
@[simp] theorem State.setV_I (s : State) (i : Reg) (v : Byte) : (s.setV i v).I = s.I := rfl
@[simp] theorem State.setV_pc (s : State) (i : Reg) (v : Byte) : (s.setV i v).pc = s.pc := rfl
@[simp] theorem State.setV_stack (s : State) (i : Reg) (v : Byte) : (s.setV i v).stack = s.stack := rfl
@[simp] theorem State.setV_sp (s : State) (i : Reg) (v : Byte) : (s.setV i v).sp = s.sp := rfl
@[simp] theorem State.setV_DT (s : State) (i : Reg) (v : Byte) : (s.setV i v).DT = s.DT := rfl
@[simp] theorem State.setV_ST (s : State) (i : Reg) (v : Byte) : (s.setV i v).ST = s.ST := rfl
@[simp] theorem State.setV_key (s : State) (i : Reg) (v : Byte) : (s.setV i v).key = s.key := rfl
@[simp] theorem State.setV_keyPressedThisTick (s : State) (i : Reg) (v : Byte) : (s.setV i v).keyPressedThisTick = s.keyPressedThisTick := rfl
@[simp] theorem State.setV_lastKey (s : State) (i : Reg) (v : Byte) : (s.setV i v).lastKey = s.lastKey := rfl
@[simp] theorem State.setV_fb (s : State) (i : Reg) (v : Byte) : (s.setV i v).fb = s.fb := rfl
@[simp] theorem State.setV_rndSeed (s : State) (i : Reg) (v : Byte) : (s.setV i v).rndSeed = s.rndSeed := rfl
@[simp] theorem State.setV_shiftUsesVY (s : State) (i : Reg) (v : Byte) : (s.setV i v).shiftUsesVY = s.shiftUsesVY := rfl
@[simp] theorem State.setV_jumpAddsVX (s : State) (i : Reg) (v : Byte) : (s.setV i v).jumpAddsVX = s.jumpAddsVX := rfl
@[simp] theorem State.setV_loadStoreIncrementsI (s : State) (i : Reg) (v : Byte) : (s.setV i v).loadStoreIncrementsI = s.loadStoreIncrementsI := rfl
@[simp] theorem State.setV_config (s : State) (i : Reg) (v : Byte) : (s.setV i v).config = s.config := rfl
@[simp] theorem State.setV_host (s : State) (i : Reg) (v : Byte) : (s.setV i v).host = s.host := rfl
@[simp] theorem State.setV_freeIndex (s : State) (i : Reg) (v : Byte) : (s.setV i v).freeIndex = s.freeIndex := rfl
@[simp] theorem State.setV_outputs (s : State) (i : Reg) (v : Byte) : (s.setV i v).outputs = s.outputs := rfl
@[simp] theorem State.setV_readByte (s : State) (i : Reg) (v : Byte) (a' : Nat) : (s.setV i v).readByte a' = s.readByte a' := rfl

/-! ## setI -/

@[simp] theorem State.setI_mem (s : State) (v : Word) : (s.setI v).mem = s.mem := rfl
@[simp] theorem State.setI_romCopy (s : State) (v : Word) : (s.setI v).romCopy = s.romCopy := rfl
@[simp] theorem State.setI_V (s : State) (v : Word) : (s.setI v).V = s.V := rfl
@[simp] theorem State.setI_I (s : State) (v : Word) : (s.setI v).I = v := rfl
@[simp] theorem State.setI_pc (s : State) (v : Word) : (s.setI v).pc = s.pc := rfl
@[simp] theorem State.setI_stack (s : State) (v : Word) : (s.setI v).stack = s.stack := rfl
@[simp] theorem State.setI_sp (s : State) (v : Word) : (s.setI v).sp = s.sp := rfl
@[simp] theorem State.setI_DT (s : State) (v : Word) : (s.setI v).DT = s.DT := rfl
@[simp] theorem State.setI_ST (s : State) (v : Word) : (s.setI v).ST = s.ST := rfl
@[simp] theorem State.setI_key (s : State) (v : Word) : (s.setI v).key = s.key := rfl
@[simp] theorem State.setI_keyPressedThisTick (s : State) (v : Word) : (s.setI v).keyPressedThisTick = s.keyPressedThisTick := rfl
@[simp] theorem State.setI_lastKey (s : State) (v : Word) : (s.setI v).lastKey = s.lastKey := rfl
@[simp] theorem State.setI_fb (s : State) (v : Word) : (s.setI v).fb = s.fb := rfl
@[simp] theorem State.setI_rndSeed (s : State) (v : Word) : (s.setI v).rndSeed = s.rndSeed := rfl
@[simp] theorem State.setI_shiftUsesVY (s : State) (v : Word) : (s.setI v).shiftUsesVY = s.shiftUsesVY := rfl
@[simp] theorem State.setI_jumpAddsVX (s : State) (v : Word) : (s.setI v).jumpAddsVX = s.jumpAddsVX := rfl
@[simp] theorem State.setI_loadStoreIncrementsI (s : State) (v : Word) : (s.setI v).loadStoreIncrementsI = s.loadStoreIncrementsI := rfl
@[simp] theorem State.setI_config (s : State) (v : Word) : (s.setI v).config = s.config := rfl
@[simp] theorem State.setI_host (s : State) (v : Word) : (s.setI v).host = s.host := rfl
@[simp] theorem State.setI_freeIndex (s : State) (v : Word) : (s.setI v).freeIndex = s.freeIndex := rfl
@[simp] theorem State.setI_outputs (s : State) (v : Word) : (s.setI v).outputs = s.outputs := rfl
@[simp] theorem State.setI_getV (s : State) (v : Word) (r : Reg) : (s.setI v).getV r = s.getV r := rfl
@[simp] theorem State.setI_readByte (s : State) (v : Word) (a' : Nat) : (s.setI v).readByte a' = s.readByte a' := rfl

/-! ## setDT -/

@[simp] theorem State.setDT_mem (s : State) (v : Byte) : (s.setDT v).mem = s.mem := rfl
@[simp] theorem State.setDT_romCopy (s : State) (v : Byte) : (s.setDT v).romCopy = s.romCopy := rfl
@[simp] theorem State.setDT_V (s : State) (v : Byte) : (s.setDT v).V = s.V := rfl
@[simp] theorem State.setDT_I (s : State) (v : Byte) : (s.setDT v).I = s.I := rfl
@[simp] theorem State.setDT_pc (s : State) (v : Byte) : (s.setDT v).pc = s.pc := rfl
@[simp] theorem State.setDT_stack (s : State) (v : Byte) : (s.setDT v).stack = s.stack := rfl
@[simp] theorem State.setDT_sp (s : State) (v : Byte) : (s.setDT v).sp = s.sp := rfl
@[simp] theorem State.setDT_DT (s : State) (v : Byte) : (s.setDT v).DT = v := rfl
@[simp] theorem State.setDT_ST (s : State) (v : Byte) : (s.setDT v).ST = s.ST := rfl
@[simp] theorem State.setDT_key (s : State) (v : Byte) : (s.setDT v).key = s.key := rfl
@[simp] theorem State.setDT_keyPressedThisTick (s : State) (v : Byte) : (s.setDT v).keyPressedThisTick = s.keyPressedThisTick := rfl
@[simp] theorem State.setDT_lastKey (s : State) (v : Byte) : (s.setDT v).lastKey = s.lastKey := rfl
@[simp] theorem State.setDT_fb (s : State) (v : Byte) : (s.setDT v).fb = s.fb := rfl
@[simp] theorem State.setDT_rndSeed (s : State) (v : Byte) : (s.setDT v).rndSeed = s.rndSeed := rfl
@[simp] theorem State.setDT_shiftUsesVY (s : State) (v : Byte) : (s.setDT v).shiftUsesVY = s.shiftUsesVY := rfl
@[simp] theorem State.setDT_jumpAddsVX (s : State) (v : Byte) : (s.setDT v).jumpAddsVX = s.jumpAddsVX := rfl
@[simp] theorem State.setDT_loadStoreIncrementsI (s : State) (v : Byte) : (s.setDT v).loadStoreIncrementsI = s.loadStoreIncrementsI := rfl
@[simp] theorem State.setDT_config (s : State) (v : Byte) : (s.setDT v).config = s.config := rfl
@[simp] theorem State.setDT_host (s : State) (v : Byte) : (s.setDT v).host = s.host := rfl
@[simp] theorem State.setDT_freeIndex (s : State) (v : Byte) : (s.setDT v).freeIndex = s.freeIndex := rfl
@[simp] theorem State.setDT_outputs (s : State) (v : Byte) : (s.setDT v).outputs = s.outputs := rfl
@[simp] theorem State.setDT_getV (s : State) (v : Byte) (r : Reg) : (s.setDT v).getV r = s.getV r := rfl
@[simp] theorem State.setDT_readByte (s : State) (v : Byte) (a' : Nat) : (s.setDT v).readByte a' = s.readByte a' := rfl

/-! ## setST -/

@[simp] theorem State.setST_mem (s : State) (v : Byte) : (s.setST v).mem = s.mem := rfl
@[simp] theorem State.setST_romCopy (s : State) (v : Byte) : (s.setST v).romCopy = s.romCopy := rfl
@[simp] theorem State.setST_V (s : State) (v : Byte) : (s.setST v).V = s.V := rfl
@[simp] theorem State.setST_I (s : State) (v : Byte) : (s.setST v).I = s.I := rfl
@[simp] theorem State.setST_pc (s : State) (v : Byte) : (s.setST v).pc = s.pc := rfl
@[simp] theorem State.setST_stack (s : State) (v : Byte) : (s.setST v).stack = s.stack := rfl
@[simp] theorem State.setST_sp (s : State) (v : Byte) : (s.setST v).sp = s.sp := rfl
@[simp] theorem State.setST_DT (s : State) (v : Byte) : (s.setST v).DT = s.DT := rfl
@[simp] theorem State.setST_ST (s : State) (v : Byte) : (s.setST v).ST = v := rfl
@[simp] theorem State.setST_key (s : State) (v : Byte) : (s.setST v).key = s.key := rfl
@[simp] theorem State.setST_keyPressedThisTick (s : State) (v : Byte) : (s.setST v).keyPressedThisTick = s.keyPressedThisTick := rfl
@[simp] theorem State.setST_lastKey (s : State) (v : Byte) : (s.setST v).lastKey = s.lastKey := rfl
@[simp] theorem State.setST_fb (s : State) (v : Byte) : (s.setST v).fb = s.fb := rfl
@[simp] theorem State.setST_rndSeed (s : State) (v : Byte) : (s.setST v).rndSeed = s.rndSeed := rfl
@[simp] theorem State.setST_shiftUsesVY (s : State) (v : Byte) : (s.setST v).shiftUsesVY = s.shiftUsesVY := rfl
@[simp] theorem State.setST_jumpAddsVX (s : State) (v : Byte) : (s.setST v).jumpAddsVX = s.jumpAddsVX := rfl
@[simp] theorem State.setST_loadStoreIncrementsI (s : State) (v : Byte) : (s.setST v).loadStoreIncrementsI = s.loadStoreIncrementsI := rfl
@[simp] theorem State.setST_config (s : State) (v : Byte) : (s.setST v).config = s.config := rfl
@[simp] theorem State.setST_host (s : State) (v : Byte) : (s.setST v).host = s.host := rfl
@[simp] theorem State.setST_freeIndex (s : State) (v : Byte) : (s.setST v).freeIndex = s.freeIndex := rfl
@[simp] theorem State.setST_outputs (s : State) (v : Byte) : (s.setST v).outputs = s.outputs := rfl
@[simp] theorem State.setST_getV (s : State) (v : Byte) (r : Reg) : (s.setST v).getV r = s.getV r := rfl
@[simp] theorem State.setST_readByte (s : State) (v : Byte) (a' : Nat) : (s.setST v).readByte a' = s.readByte a' := rfl

/-! ## setSeed -/

@[simp] theorem State.setSeed_mem (s : State) (v : Byte) : (s.setSeed v).mem = s.mem := rfl
@[simp] theorem State.setSeed_romCopy (s : State) (v : Byte) : (s.setSeed v).romCopy = s.romCopy := rfl
@[simp] theorem State.setSeed_V (s : State) (v : Byte) : (s.setSeed v).V = s.V := rfl
@[simp] theorem State.setSeed_I (s : State) (v : Byte) : (s.setSeed v).I = s.I := rfl
@[simp] theorem State.setSeed_pc (s : State) (v : Byte) : (s.setSeed v).pc = s.pc := rfl
@[simp] theorem State.setSeed_stack (s : State) (v : Byte) : (s.setSeed v).stack = s.stack := rfl
@[simp] theorem State.setSeed_sp (s : State) (v : Byte) : (s.setSeed v).sp = s.sp := rfl
@[simp] theorem State.setSeed_DT (s : State) (v : Byte) : (s.setSeed v).DT = s.DT := rfl
@[simp] theorem State.setSeed_ST (s : State) (v : Byte) : (s.setSeed v).ST = s.ST := rfl
@[simp] theorem State.setSeed_key (s : State) (v : Byte) : (s.setSeed v).key = s.key := rfl
@[simp] theorem State.setSeed_keyPressedThisTick (s : State) (v : Byte) : (s.setSeed v).keyPressedThisTick = s.keyPressedThisTick := rfl
@[simp] theorem State.setSeed_lastKey (s : State) (v : Byte) : (s.setSeed v).lastKey = s.lastKey := rfl
@[simp] theorem State.setSeed_fb (s : State) (v : Byte) : (s.setSeed v).fb = s.fb := rfl
@[simp] theorem State.setSeed_rndSeed (s : State) (v : Byte) : (s.setSeed v).rndSeed = v := rfl
@[simp] theorem State.setSeed_shiftUsesVY (s : State) (v : Byte) : (s.setSeed v).shiftUsesVY = s.shiftUsesVY := rfl
@[simp] theorem State.setSeed_jumpAddsVX (s : State) (v : Byte) : (s.setSeed v).jumpAddsVX = s.jumpAddsVX := rfl
@[simp] theorem State.setSeed_loadStoreIncrementsI (s : State) (v : Byte) : (s.setSeed v).loadStoreIncrementsI = s.loadStoreIncrementsI := rfl
@[simp] theorem State.setSeed_config (s : State) (v : Byte) : (s.setSeed v).config = s.config := rfl
@[simp] theorem State.setSeed_host (s : State) (v : Byte) : (s.setSeed v).host = s.host := rfl
@[simp] theorem State.setSeed_freeIndex (s : State) (v : Byte) : (s.setSeed v).freeIndex = s.freeIndex := rfl
@[simp] theorem State.setSeed_outputs (s : State) (v : Byte) : (s.setSeed v).outputs = s.outputs := rfl
@[simp] theorem State.setSeed_getV (s : State) (v : Byte) (r : Reg) : (s.setSeed v).getV r = s.getV r := rfl
@[simp] theorem State.setSeed_readByte (s : State) (v : Byte) (a' : Nat) : (s.setSeed v).readByte a' = s.readByte a' := rfl

/-! ## emit -/

@[simp] theorem State.emit_mem (s : State) (o : Output) : (s.emit o).mem = s.mem := rfl
@[simp] theorem State.emit_romCopy (s : State) (o : Output) : (s.emit o).romCopy = s.romCopy := rfl
@[simp] theorem State.emit_V (s : State) (o : Output) : (s.emit o).V = s.V := rfl
@[simp] theorem State.emit_I (s : State) (o : Output) : (s.emit o).I = s.I := rfl
@[simp] theorem State.emit_pc (s : State) (o : Output) : (s.emit o).pc = s.pc := rfl
@[simp] theorem State.emit_stack (s : State) (o : Output) : (s.emit o).stack = s.stack := rfl
@[simp] theorem State.emit_sp (s : State) (o : Output) : (s.emit o).sp = s.sp := rfl
@[simp] theorem State.emit_DT (s : State) (o : Output) : (s.emit o).DT = s.DT := rfl
@[simp] theorem State.emit_ST (s : State) (o : Output) : (s.emit o).ST = s.ST := rfl
@[simp] theorem State.emit_key (s : State) (o : Output) : (s.emit o).key = s.key := rfl
@[simp] theorem State.emit_keyPressedThisTick (s : State) (o : Output) : (s.emit o).keyPressedThisTick = s.keyPressedThisTick := rfl
@[simp] theorem State.emit_lastKey (s : State) (o : Output) : (s.emit o).lastKey = s.lastKey := rfl
@[simp] theorem State.emit_fb (s : State) (o : Output) : (s.emit o).fb = s.fb := rfl
@[simp] theorem State.emit_rndSeed (s : State) (o : Output) : (s.emit o).rndSeed = s.rndSeed := rfl
@[simp] theorem State.emit_shiftUsesVY (s : State) (o : Output) : (s.emit o).shiftUsesVY = s.shiftUsesVY := rfl
@[simp] theorem State.emit_jumpAddsVX (s : State) (o : Output) : (s.emit o).jumpAddsVX = s.jumpAddsVX := rfl
@[simp] theorem State.emit_loadStoreIncrementsI (s : State) (o : Output) : (s.emit o).loadStoreIncrementsI = s.loadStoreIncrementsI := rfl
@[simp] theorem State.emit_config (s : State) (o : Output) : (s.emit o).config = s.config := rfl
@[simp] theorem State.emit_host (s : State) (o : Output) : (s.emit o).host = s.host := rfl
@[simp] theorem State.emit_freeIndex (s : State) (o : Output) : (s.emit o).freeIndex = s.freeIndex := rfl
@[simp] theorem State.emit_outputs (s : State) (o : Output) : (s.emit o).outputs = s.outputs ++ [o] := rfl
@[simp] theorem State.emit_getV (s : State) (o : Output) (r : Reg) : (s.emit o).getV r = s.getV r := rfl
@[simp] theorem State.emit_readByte (s : State) (o : Output) (a' : Nat) : (s.emit o).readByte a' = s.readByte a' := rfl

/-! ## setPc -/

@[simp] theorem State.setPc_mem (s : State) (v : Word) : (s.setPc v).mem = s.mem := rfl
@[simp] theorem State.setPc_romCopy (s : State) (v : Word) : (s.setPc v).romCopy = s.romCopy := rfl
@[simp] theorem State.setPc_V (s : State) (v : Word) : (s.setPc v).V = s.V := rfl
@[simp] theorem State.setPc_I (s : State) (v : Word) : (s.setPc v).I = s.I := rfl
@[simp] theorem State.setPc_pc (s : State) (v : Word) : (s.setPc v).pc = v := rfl
@[simp] theorem State.setPc_stack (s : State) (v : Word) : (s.setPc v).stack = s.stack := rfl
@[simp] theorem State.setPc_sp (s : State) (v : Word) : (s.setPc v).sp = s.sp := rfl
@[simp] theorem State.setPc_DT (s : State) (v : Word) : (s.setPc v).DT = s.DT := rfl
@[simp] theorem State.setPc_ST (s : State) (v : Word) : (s.setPc v).ST = s.ST := rfl
@[simp] theorem State.setPc_key (s : State) (v : Word) : (s.setPc v).key = s.key := rfl
@[simp] theorem State.setPc_keyPressedThisTick (s : State) (v : Word) : (s.setPc v).keyPressedThisTick = s.keyPressedThisTick := rfl
@[simp] theorem State.setPc_lastKey (s : State) (v : Word) : (s.setPc v).lastKey = s.lastKey := rfl
@[simp] theorem State.setPc_fb (s : State) (v : Word) : (s.setPc v).fb = s.fb := rfl
@[simp] theorem State.setPc_rndSeed (s : State) (v : Word) : (s.setPc v).rndSeed = s.rndSeed := rfl
@[simp] theorem State.setPc_shiftUsesVY (s : State) (v : Word) : (s.setPc v).shiftUsesVY = s.shiftUsesVY := rfl
@[simp] theorem State.setPc_jumpAddsVX (s : State) (v : Word) : (s.setPc v).jumpAddsVX = s.jumpAddsVX := rfl
@[simp] theorem State.setPc_loadStoreIncrementsI (s : State) (v : Word) : (s.setPc v).loadStoreIncrementsI = s.loadStoreIncrementsI := rfl
@[simp] theorem State.setPc_config (s : State) (v : Word) : (s.setPc v).config = s.config := rfl
@[simp] theorem State.setPc_host (s : State) (v : Word) : (s.setPc v).host = s.host := rfl
@[simp] theorem State.setPc_freeIndex (s : State) (v : Word) : (s.setPc v).freeIndex = s.freeIndex := rfl
@[simp] theorem State.setPc_outputs (s : State) (v : Word) : (s.setPc v).outputs = s.outputs := rfl
@[simp] theorem State.setPc_getV (s : State) (v : Word) (r : Reg) : (s.setPc v).getV r = s.getV r := rfl
@[simp] theorem State.setPc_readByte (s : State) (v : Word) (a' : Nat) : (s.setPc v).readByte a' = s.readByte a' := rfl

/-! ## writeByte -/

@[simp] theorem State.writeByte_mem (s : State) (a : Nat) (v : Byte) : (s.writeByte a v).mem = s.mem.store (unlisted s.config a) a v := rfl
@[simp] theorem State.writeByte_romCopy (s : State) (a : Nat) (v : Byte) : (s.writeByte a v).romCopy = s.romCopy := rfl
@[simp] theorem State.writeByte_V (s : State) (a : Nat) (v : Byte) : (s.writeByte a v).V = s.V := rfl
@[simp] theorem State.writeByte_I (s : State) (a : Nat) (v : Byte) : (s.writeByte a v).I = s.I := rfl
@[simp] theorem State.writeByte_pc (s : State) (a : Nat) (v : Byte) : (s.writeByte a v).pc = s.pc := rfl
@[simp] theorem State.writeByte_stack (s : State) (a : Nat) (v : Byte) : (s.writeByte a v).stack = s.stack := rfl
@[simp] theorem State.writeByte_sp (s : State) (a : Nat) (v : Byte) : (s.writeByte a v).sp = s.sp := rfl
@[simp] theorem State.writeByte_DT (s : State) (a : Nat) (v : Byte) : (s.writeByte a v).DT = s.DT := rfl
@[simp] theorem State.writeByte_ST (s : State) (a : Nat) (v : Byte) : (s.writeByte a v).ST = s.ST := rfl
@[simp] theorem State.writeByte_key (s : State) (a : Nat) (v : Byte) : (s.writeByte a v).key = s.key := rfl
@[simp] theorem State.writeByte_keyPressedThisTick (s : State) (a : Nat) (v : Byte) : (s.writeByte a v).keyPressedThisTick = s.keyPressedThisTick := rfl
@[simp] theorem State.writeByte_lastKey (s : State) (a : Nat) (v : Byte) : (s.writeByte a v).lastKey = s.lastKey := rfl
@[simp] theorem State.writeByte_fb (s : State) (a : Nat) (v : Byte) : (s.writeByte a v).fb = s.fb := rfl
@[simp] theorem State.writeByte_rndSeed (s : State) (a : Nat) (v : Byte) : (s.writeByte a v).rndSeed = s.rndSeed := rfl
@[simp] theorem State.writeByte_shiftUsesVY (s : State) (a : Nat) (v : Byte) : (s.writeByte a v).shiftUsesVY = s.shiftUsesVY := rfl
@[simp] theorem State.writeByte_jumpAddsVX (s : State) (a : Nat) (v : Byte) : (s.writeByte a v).jumpAddsVX = s.jumpAddsVX := rfl
@[simp] theorem State.writeByte_loadStoreIncrementsI (s : State) (a : Nat) (v : Byte) : (s.writeByte a v).loadStoreIncrementsI = s.loadStoreIncrementsI := rfl
@[simp] theorem State.writeByte_config (s : State) (a : Nat) (v : Byte) : (s.writeByte a v).config = s.config := rfl
@[simp] theorem State.writeByte_host (s : State) (a : Nat) (v : Byte) : (s.writeByte a v).host = s.host := rfl
@[simp] theorem State.writeByte_freeIndex (s : State) (a : Nat) (v : Byte) : (s.writeByte a v).freeIndex = s.freeIndex := rfl
@[simp] theorem State.writeByte_outputs (s : State) (a : Nat) (v : Byte) : (s.writeByte a v).outputs = s.outputs := rfl
@[simp] theorem State.writeByte_getV (s : State) (a : Nat) (v : Byte) (r : Reg) : (s.writeByte a v).getV r = s.getV r := rfl

/-! ## clearScreen -/

@[simp] theorem State.clearScreen_mem (s : State) : (s.clearScreen).mem = s.mem := rfl
@[simp] theorem State.clearScreen_romCopy (s : State) : (s.clearScreen).romCopy = s.romCopy := rfl
@[simp] theorem State.clearScreen_V (s : State) : (s.clearScreen).V = s.V := rfl
@[simp] theorem State.clearScreen_I (s : State) : (s.clearScreen).I = s.I := rfl
@[simp] theorem State.clearScreen_pc (s : State) : (s.clearScreen).pc = s.pc := rfl
@[simp] theorem State.clearScreen_stack (s : State) : (s.clearScreen).stack = s.stack := rfl
@[simp] theorem State.clearScreen_sp (s : State) : (s.clearScreen).sp = s.sp := rfl
@[simp] theorem State.clearScreen_DT (s : State) : (s.clearScreen).DT = s.DT := rfl
@[simp] theorem State.clearScreen_ST (s : State) : (s.clearScreen).ST = s.ST := rfl
@[simp] theorem State.clearScreen_key (s : State) : (s.clearScreen).key = s.key := rfl
@[simp] theorem State.clearScreen_keyPressedThisTick (s : State) : (s.clearScreen).keyPressedThisTick = s.keyPressedThisTick := rfl
@[simp] theorem State.clearScreen_lastKey (s : State) : (s.clearScreen).lastKey = s.lastKey := rfl
@[simp] theorem State.clearScreen_fb (s : State) : (s.clearScreen).fb = Vector.replicate 2048 0 := rfl
@[simp] theorem State.clearScreen_rndSeed (s : State) : (s.clearScreen).rndSeed = s.rndSeed := rfl
@[simp] theorem State.clearScreen_shiftUsesVY (s : State) : (s.clearScreen).shiftUsesVY = s.shiftUsesVY := rfl
@[simp] theorem State.clearScreen_jumpAddsVX (s : State) : (s.clearScreen).jumpAddsVX = s.jumpAddsVX := rfl
@[simp] theorem State.clearScreen_loadStoreIncrementsI (s : State) : (s.clearScreen).loadStoreIncrementsI = s.loadStoreIncrementsI := rfl
@[simp] theorem State.clearScreen_config (s : State) : (s.clearScreen).config = s.config := rfl
@[simp] theorem State.clearScreen_host (s : State) : (s.clearScreen).host = s.host := rfl
@[simp] theorem State.clearScreen_freeIndex (s : State) : (s.clearScreen).freeIndex = s.freeIndex := rfl
@[simp] theorem State.clearScreen_outputs (s : State) : (s.clearScreen).outputs = s.outputs := rfl
@[simp] theorem State.clearScreen_getV (s : State) (r : Reg) : (s.clearScreen).getV r = s.getV r := rfl
@[simp] theorem State.clearScreen_readByte (s : State) (a' : Nat) : (s.clearScreen).readByte a' = s.readByte a' := rfl

/-! ## clearLatch -/

@[simp] theorem State.clearLatch_mem (s : State) : (s.clearLatch).mem = s.mem := rfl
@[simp] theorem State.clearLatch_romCopy (s : State) : (s.clearLatch).romCopy = s.romCopy := rfl
@[simp] theorem State.clearLatch_V (s : State) : (s.clearLatch).V = s.V := rfl
@[simp] theorem State.clearLatch_I (s : State) : (s.clearLatch).I = s.I := rfl
@[simp] theorem State.clearLatch_pc (s : State) : (s.clearLatch).pc = s.pc := rfl
@[simp] theorem State.clearLatch_stack (s : State) : (s.clearLatch).stack = s.stack := rfl
@[simp] theorem State.clearLatch_sp (s : State) : (s.clearLatch).sp = s.sp := rfl
@[simp] theorem State.clearLatch_DT (s : State) : (s.clearLatch).DT = s.DT := rfl
@[simp] theorem State.clearLatch_ST (s : State) : (s.clearLatch).ST = s.ST := rfl
@[simp] theorem State.clearLatch_key (s : State) : (s.clearLatch).key = s.key := rfl
@[simp] theorem State.clearLatch_keyPressedThisTick (s : State) : (s.clearLatch).keyPressedThisTick = false := rfl
@[simp] theorem State.clearLatch_lastKey (s : State) : (s.clearLatch).lastKey = s.lastKey := rfl
@[simp] theorem State.clearLatch_fb (s : State) : (s.clearLatch).fb = s.fb := rfl
@[simp] theorem State.clearLatch_rndSeed (s : State) : (s.clearLatch).rndSeed = s.rndSeed := rfl
@[simp] theorem State.clearLatch_shiftUsesVY (s : State) : (s.clearLatch).shiftUsesVY = s.shiftUsesVY := rfl
@[simp] theorem State.clearLatch_jumpAddsVX (s : State) : (s.clearLatch).jumpAddsVX = s.jumpAddsVX := rfl
@[simp] theorem State.clearLatch_loadStoreIncrementsI (s : State) : (s.clearLatch).loadStoreIncrementsI = s.loadStoreIncrementsI := rfl
@[simp] theorem State.clearLatch_config (s : State) : (s.clearLatch).config = s.config := rfl
@[simp] theorem State.clearLatch_host (s : State) : (s.clearLatch).host = s.host := rfl
@[simp] theorem State.clearLatch_freeIndex (s : State) : (s.clearLatch).freeIndex = s.freeIndex := rfl
@[simp] theorem State.clearLatch_outputs (s : State) : (s.clearLatch).outputs = s.outputs := rfl
@[simp] theorem State.clearLatch_getV (s : State) (r : Reg) : (s.clearLatch).getV r = s.getV r := rfl
@[simp] theorem State.clearLatch_readByte (s : State) (a' : Nat) : (s.clearLatch).readByte a' = s.readByte a' := rfl

/-! ## stepTimers -/

@[simp] theorem State.stepTimers_mem (s : State) : (s.stepTimers).mem = s.mem := rfl
@[simp] theorem State.stepTimers_romCopy (s : State) : (s.stepTimers).romCopy = s.romCopy := rfl
@[simp] theorem State.stepTimers_V (s : State) : (s.stepTimers).V = s.V := rfl
@[simp] theorem State.stepTimers_I (s : State) : (s.stepTimers).I = s.I := rfl
@[simp] theorem State.stepTimers_pc (s : State) : (s.stepTimers).pc = s.pc := rfl
@[simp] theorem State.stepTimers_stack (s : State) : (s.stepTimers).stack = s.stack := rfl
@[simp] theorem State.stepTimers_sp (s : State) : (s.stepTimers).sp = s.sp := rfl
@[simp] theorem State.stepTimers_DT (s : State) : (s.stepTimers).DT = timerStep s.DT := rfl
@[simp] theorem State.stepTimers_ST (s : State) : (s.stepTimers).ST = timerStep s.ST := rfl
@[simp] theorem State.stepTimers_key (s : State) : (s.stepTimers).key = s.key := rfl
@[simp] theorem State.stepTimers_keyPressedThisTick (s : State) : (s.stepTimers).keyPressedThisTick = s.keyPressedThisTick := rfl
@[simp] theorem State.stepTimers_lastKey (s : State) : (s.stepTimers).lastKey = s.lastKey := rfl
@[simp] theorem State.stepTimers_fb (s : State) : (s.stepTimers).fb = s.fb := rfl
@[simp] theorem State.stepTimers_rndSeed (s : State) : (s.stepTimers).rndSeed = s.rndSeed := rfl
@[simp] theorem State.stepTimers_shiftUsesVY (s : State) : (s.stepTimers).shiftUsesVY = s.shiftUsesVY := rfl
@[simp] theorem State.stepTimers_jumpAddsVX (s : State) : (s.stepTimers).jumpAddsVX = s.jumpAddsVX := rfl
@[simp] theorem State.stepTimers_loadStoreIncrementsI (s : State) : (s.stepTimers).loadStoreIncrementsI = s.loadStoreIncrementsI := rfl
@[simp] theorem State.stepTimers_config (s : State) : (s.stepTimers).config = s.config := rfl
@[simp] theorem State.stepTimers_host (s : State) : (s.stepTimers).host = s.host := rfl
@[simp] theorem State.stepTimers_freeIndex (s : State) : (s.stepTimers).freeIndex = s.freeIndex := rfl
@[simp] theorem State.stepTimers_outputs (s : State) : (s.stepTimers).outputs = s.outputs := rfl
@[simp] theorem State.stepTimers_getV (s : State) (r : Reg) : (s.stepTimers).getV r = s.getV r := rfl
@[simp] theorem State.stepTimers_readByte (s : State) (a' : Nat) : (s.stepTimers).readByte a' = s.readByte a' := rfl

/-! ## endTick -/

@[simp] theorem State.endTick_mem (s : State) : (s.endTick).mem = s.mem := rfl
@[simp] theorem State.endTick_romCopy (s : State) : (s.endTick).romCopy = s.romCopy := rfl
@[simp] theorem State.endTick_V (s : State) : (s.endTick).V = s.V := rfl
@[simp] theorem State.endTick_I (s : State) : (s.endTick).I = s.I := rfl
@[simp] theorem State.endTick_pc (s : State) : (s.endTick).pc = s.pc + 2 := rfl
@[simp] theorem State.endTick_stack (s : State) : (s.endTick).stack = s.stack := rfl
@[simp] theorem State.endTick_sp (s : State) : (s.endTick).sp = s.sp := rfl
@[simp] theorem State.endTick_DT (s : State) : (s.endTick).DT = timerStep s.DT := rfl
@[simp] theorem State.endTick_ST (s : State) : (s.endTick).ST = timerStep s.ST := rfl
@[simp] theorem State.endTick_key (s : State) : (s.endTick).key = s.key := rfl
@[simp] theorem State.endTick_keyPressedThisTick (s : State) : (s.endTick).keyPressedThisTick = false := rfl
@[simp] theorem State.endTick_lastKey (s : State) : (s.endTick).lastKey = s.lastKey := rfl
@[simp] theorem State.endTick_fb (s : State) : (s.endTick).fb = s.fb := rfl
@[simp] theorem State.endTick_rndSeed (s : State) : (s.endTick).rndSeed = s.rndSeed := rfl
@[simp] theorem State.endTick_shiftUsesVY (s : State) : (s.endTick).shiftUsesVY = s.shiftUsesVY := rfl
@[simp] theorem State.endTick_jumpAddsVX (s : State) : (s.endTick).jumpAddsVX = s.jumpAddsVX := rfl
@[simp] theorem State.endTick_loadStoreIncrementsI (s : State) : (s.endTick).loadStoreIncrementsI = s.loadStoreIncrementsI := rfl
@[simp] theorem State.endTick_config (s : State) : (s.endTick).config = s.config := rfl
@[simp] theorem State.endTick_host (s : State) : (s.endTick).host = s.host := rfl
@[simp] theorem State.endTick_freeIndex (s : State) : (s.endTick).freeIndex = s.freeIndex := rfl
@[simp] theorem State.endTick_outputs (s : State) : (s.endTick).outputs = s.outputs := rfl
@[simp] theorem State.endTick_getV (s : State) (r : Reg) : (s.endTick).getV r = s.getV r := rfl
@[simp] theorem State.endTick_readByte (s : State) (a' : Nat) : (s.endTick).readByte a' = s.readByte a' := rfl

/-! ## setShiftMode -/

@[simp] theorem State.setShiftMode_mem (s : State) (b : Bool) : (s.setShiftMode b).mem = s.mem := rfl
@[simp] theorem State.setShiftMode_romCopy (s : State) (b : Bool) : (s.setShiftMode b).romCopy = s.romCopy := rfl
@[simp] theorem State.setShiftMode_V (s : State) (b : Bool) : (s.setShiftMode b).V = s.V := rfl
@[simp] theorem State.setShiftMode_I (s : State) (b : Bool) : (s.setShiftMode b).I = s.I := rfl
@[simp] theorem State.setShiftMode_pc (s : State) (b : Bool) : (s.setShiftMode b).pc = s.pc := rfl
@[simp] theorem State.setShiftMode_stack (s : State) (b : Bool) : (s.setShiftMode b).stack = s.stack := rfl
@[simp] theorem State.setShiftMode_sp (s : State) (b : Bool) : (s.setShiftMode b).sp = s.sp := rfl
@[simp] theorem State.setShiftMode_DT (s : State) (b : Bool) : (s.setShiftMode b).DT = s.DT := rfl
@[simp] theorem State.setShiftMode_ST (s : State) (b : Bool) : (s.setShiftMode b).ST = s.ST := rfl
@[simp] theorem State.setShiftMode_key (s : State) (b : Bool) : (s.setShiftMode b).key = s.key := rfl
@[simp] theorem State.setShiftMode_keyPressedThisTick (s : State) (b : Bool) : (s.setShiftMode b).keyPressedThisTick = s.keyPressedThisTick := rfl
@[simp] theorem State.setShiftMode_lastKey (s : State) (b : Bool) : (s.setShiftMode b).lastKey = s.lastKey := rfl
@[simp] theorem State.setShiftMode_fb (s : State) (b : Bool) : (s.setShiftMode b).fb = s.fb := rfl
@[simp] theorem State.setShiftMode_rndSeed (s : State) (b : Bool) : (s.setShiftMode b).rndSeed = s.rndSeed := rfl
@[simp] theorem State.setShiftMode_shiftUsesVY (s : State) (b : Bool) : (s.setShiftMode b).shiftUsesVY = b := rfl
@[simp] theorem State.setShiftMode_jumpAddsVX (s : State) (b : Bool) : (s.setShiftMode b).jumpAddsVX = s.jumpAddsVX := rfl
@[simp] theorem State.setShiftMode_loadStoreIncrementsI (s : State) (b : Bool) : (s.setShiftMode b).loadStoreIncrementsI = s.loadStoreIncrementsI := rfl
@[simp] theorem State.setShiftMode_config (s : State) (b : Bool) : (s.setShiftMode b).config = s.config := rfl
@[simp] theorem State.setShiftMode_host (s : State) (b : Bool) : (s.setShiftMode b).host = s.host := rfl
@[simp] theorem State.setShiftMode_freeIndex (s : State) (b : Bool) : (s.setShiftMode b).freeIndex = s.freeIndex := rfl
@[simp] theorem State.setShiftMode_outputs (s : State) (b : Bool) : (s.setShiftMode b).outputs = s.outputs := rfl
@[simp] theorem State.setShiftMode_getV (s : State) (b : Bool) (r : Reg) : (s.setShiftMode b).getV r = s.getV r := rfl
@[simp] theorem State.setShiftMode_readByte (s : State) (b : Bool) (a' : Nat) : (s.setShiftMode b).readByte a' = s.readByte a' := rfl

/-! ## setJumpMode -/

@[simp] theorem State.setJumpMode_mem (s : State) (b : Bool) : (s.setJumpMode b).mem = s.mem := rfl
@[simp] theorem State.setJumpMode_romCopy (s : State) (b : Bool) : (s.setJumpMode b).romCopy = s.romCopy := rfl
@[simp] theorem State.setJumpMode_V (s : State) (b : Bool) : (s.setJumpMode b).V = s.V := rfl
@[simp] theorem State.setJumpMode_I (s : State) (b : Bool) : (s.setJumpMode b).I = s.I := rfl
@[simp] theorem State.setJumpMode_pc (s : State) (b : Bool) : (s.setJumpMode b).pc = s.pc := rfl
@[simp] theorem State.setJumpMode_stack (s : State) (b : Bool) : (s.setJumpMode b).stack = s.stack := rfl
@[simp] theorem State.setJumpMode_sp (s : State) (b : Bool) : (s.setJumpMode b).sp = s.sp := rfl
@[simp] theorem State.setJumpMode_DT (s : State) (b : Bool) : (s.setJumpMode b).DT = s.DT := rfl
@[simp] theorem State.setJumpMode_ST (s : State) (b : Bool) : (s.setJumpMode b).ST = s.ST := rfl
@[simp] theorem State.setJumpMode_key (s : State) (b : Bool) : (s.setJumpMode b).key = s.key := rfl
@[simp] theorem State.setJumpMode_keyPressedThisTick (s : State) (b : Bool) : (s.setJumpMode b).keyPressedThisTick = s.keyPressedThisTick := rfl
@[simp] theorem State.setJumpMode_lastKey (s : State) (b : Bool) : (s.setJumpMode b).lastKey = s.lastKey := rfl
@[simp] theorem State.setJumpMode_fb (s : State) (b : Bool) : (s.setJumpMode b).fb = s.fb := rfl
@[simp] theorem State.setJumpMode_rndSeed (s : State) (b : Bool) : (s.setJumpMode b).rndSeed = s.rndSeed := rfl
@[simp] theorem State.setJumpMode_shiftUsesVY (s : State) (b : Bool) : (s.setJumpMode b).shiftUsesVY = s.shiftUsesVY := rfl
@[simp] theorem State.setJumpMode_jumpAddsVX (s : State) (b : Bool) : (s.setJumpMode b).jumpAddsVX = b := rfl
@[simp] theorem State.setJumpMode_loadStoreIncrementsI (s : State) (b : Bool) : (s.setJumpMode b).loadStoreIncrementsI = s.loadStoreIncrementsI := rfl
@[simp] theorem State.setJumpMode_config (s : State) (b : Bool) : (s.setJumpMode b).config = s.config := rfl
@[simp] theorem State.setJumpMode_host (s : State) (b : Bool) : (s.setJumpMode b).host = s.host := rfl
@[simp] theorem State.setJumpMode_freeIndex (s : State) (b : Bool) : (s.setJumpMode b).freeIndex = s.freeIndex := rfl
@[simp] theorem State.setJumpMode_outputs (s : State) (b : Bool) : (s.setJumpMode b).outputs = s.outputs := rfl
@[simp] theorem State.setJumpMode_getV (s : State) (b : Bool) (r : Reg) : (s.setJumpMode b).getV r = s.getV r := rfl
@[simp] theorem State.setJumpMode_readByte (s : State) (b : Bool) (a' : Nat) : (s.setJumpMode b).readByte a' = s.readByte a' := rfl

/-! ## setLoadStoreMode -/

@[simp] theorem State.setLoadStoreMode_mem (s : State) (b : Bool) : (s.setLoadStoreMode b).mem = s.mem := rfl
@[simp] theorem State.setLoadStoreMode_romCopy (s : State) (b : Bool) : (s.setLoadStoreMode b).romCopy = s.romCopy := rfl
@[simp] theorem State.setLoadStoreMode_V (s : State) (b : Bool) : (s.setLoadStoreMode b).V = s.V := rfl
@[simp] theorem State.setLoadStoreMode_I (s : State) (b : Bool) : (s.setLoadStoreMode b).I = s.I := rfl
@[simp] theorem State.setLoadStoreMode_pc (s : State) (b : Bool) : (s.setLoadStoreMode b).pc = s.pc := rfl
@[simp] theorem State.setLoadStoreMode_stack (s : State) (b : Bool) : (s.setLoadStoreMode b).stack = s.stack := rfl
@[simp] theorem State.setLoadStoreMode_sp (s : State) (b : Bool) : (s.setLoadStoreMode b).sp = s.sp := rfl
@[simp] theorem State.setLoadStoreMode_DT (s : State) (b : Bool) : (s.setLoadStoreMode b).DT = s.DT := rfl
@[simp] theorem State.setLoadStoreMode_ST (s : State) (b : Bool) : (s.setLoadStoreMode b).ST = s.ST := rfl
@[simp] theorem State.setLoadStoreMode_key (s : State) (b : Bool) : (s.setLoadStoreMode b).key = s.key := rfl
@[simp] theorem State.setLoadStoreMode_keyPressedThisTick (s : State) (b : Bool) : (s.setLoadStoreMode b).keyPressedThisTick = s.keyPressedThisTick := rfl
@[simp] theorem State.setLoadStoreMode_lastKey (s : State) (b : Bool) : (s.setLoadStoreMode b).lastKey = s.lastKey := rfl
@[simp] theorem State.setLoadStoreMode_fb (s : State) (b : Bool) : (s.setLoadStoreMode b).fb = s.fb := rfl
@[simp] theorem State.setLoadStoreMode_rndSeed (s : State) (b : Bool) : (s.setLoadStoreMode b).rndSeed = s.rndSeed := rfl
@[simp] theorem State.setLoadStoreMode_shiftUsesVY (s : State) (b : Bool) : (s.setLoadStoreMode b).shiftUsesVY = s.shiftUsesVY := rfl
@[simp] theorem State.setLoadStoreMode_jumpAddsVX (s : State) (b : Bool) : (s.setLoadStoreMode b).jumpAddsVX = s.jumpAddsVX := rfl
@[simp] theorem State.setLoadStoreMode_loadStoreIncrementsI (s : State) (b : Bool) : (s.setLoadStoreMode b).loadStoreIncrementsI = b := rfl
@[simp] theorem State.setLoadStoreMode_config (s : State) (b : Bool) : (s.setLoadStoreMode b).config = s.config := rfl
@[simp] theorem State.setLoadStoreMode_host (s : State) (b : Bool) : (s.setLoadStoreMode b).host = s.host := rfl
@[simp] theorem State.setLoadStoreMode_freeIndex (s : State) (b : Bool) : (s.setLoadStoreMode b).freeIndex = s.freeIndex := rfl
@[simp] theorem State.setLoadStoreMode_outputs (s : State) (b : Bool) : (s.setLoadStoreMode b).outputs = s.outputs := rfl
@[simp] theorem State.setLoadStoreMode_getV (s : State) (b : Bool) (r : Reg) : (s.setLoadStoreMode b).getV r = s.getV r := rfl
@[simp] theorem State.setLoadStoreMode_readByte (s : State) (b : Bool) (a' : Nat) : (s.setLoadStoreMode b).readByte a' = s.readByte a' := rfl

/-! ## Updates that are another one's special case -/

@[simp] theorem State.setFlag_eq (s : State) (v : Byte) : s.setFlag v = s.setV VF v := rfl
@[simp] theorem State.advancePc_eq (s : State) : s.advancePc = s.setPc (s.pc + 2) := rfl
@[simp] theorem State.skipNext_eq (s : State) : s.skipNext = s.setPc (s.pc + 2) := rfl
@[simp] theorem State.rewind_eq (s : State) : s.rewind = s.setPc (s.pc - 2) := rfl
@[simp] theorem State.jumpTo_eq (s : State) (t : Word) : s.jumpTo t = s.setPc (t - 2) := rfl
@[simp] theorem State.setLogger_eq (s : State) : s.setLogger = s := rfl

/-- A skip changes pc alone. -/
theorem State.skipIf_eq (s : State) (b : Bool) : s.skipIf b = s.setPc (if b then s.pc + 2 else s.pc) := by
  cases b <;> rfl

/-- The optional increment changes I alone. -/
theorem State.bumpI_eq (s : State) (x : Reg) :
    s.bumpI x = s.setI (if s.loadStoreIncrementsI then s.I + BitVec.ofNat 16 x.val else s.I) := by
  unfold State.bumpI; split <;> rfl

/-! ## Reading a register after a write -/

theorem State.getV_setV (s : State) (i r : Reg) (v : Byte) :
    (s.setV i v).getV r = if r = i then v else s.getV r := by
  simp only [State.getV, State.setV, Vector.getElem_set, Fin.ext_iff, eq_comm]

@[simp] theorem State.getV_setV_same (s : State) (i : Reg) (v : Byte) : (s.setV i v).getV i = v := by
  simp [State.getV_setV]

theorem State.getV_setV_other (s : State) {i r : Reg} (v : Byte) (h : r ≠ i) : (s.setV i v).getV r = s.getV r := by
  simp [State.getV_setV, h]

/-- Two states agree on every register exactly when their register files are equal. -/
theorem State.V_eq_iff (s t : State) : t.V = s.V ↔ ∀ r, t.getV r = s.getV r := by
  constructor
  · intro h r; simp [State.getV, h]
  · intro h; exact Vector.ext fun i hi => h ⟨i, hi⟩

/-! ## hostReset -/

@[simp] theorem State.hostReset_mem (s : State) : s.hostReset.mem = resetMemory s.mem s.romCopy := rfl
@[simp] theorem State.hostReset_romCopy (s : State) : s.hostReset.romCopy = s.romCopy := rfl
@[simp] theorem State.hostReset_V (s : State) : s.hostReset.V = Vector.replicate 16 0 := rfl
@[simp] theorem State.hostReset_I (s : State) : s.hostReset.I = 0 := rfl
@[simp] theorem State.hostReset_pc (s : State) : s.hostReset.pc = 0x200 := rfl
@[simp] theorem State.hostReset_stack (s : State) : s.hostReset.stack = Vector.replicate 16 0 := rfl
@[simp] theorem State.hostReset_sp (s : State) : s.hostReset.sp = 0 := rfl
@[simp] theorem State.hostReset_DT (s : State) : s.hostReset.DT = if s.config.resetClearsTimers then 0 else s.DT := rfl
@[simp] theorem State.hostReset_ST (s : State) : s.hostReset.ST = if s.config.resetClearsTimers then 0 else s.ST := rfl
@[simp] theorem State.hostReset_key (s : State) : s.hostReset.key = Vector.replicate 16 false := rfl
@[simp] theorem State.hostReset_keyPressedThisTick (s : State) : s.hostReset.keyPressedThisTick = false := rfl
@[simp] theorem State.hostReset_lastKey (s : State) : s.hostReset.lastKey = 0 := rfl
@[simp] theorem State.hostReset_fb (s : State) : s.hostReset.fb = Vector.replicate 2048 0 := rfl
@[simp] theorem State.hostReset_rndSeed (s : State) : s.hostReset.rndSeed = s.rndSeed := rfl
@[simp] theorem State.hostReset_shiftUsesVY (s : State) : s.hostReset.shiftUsesVY = s.shiftUsesVY := rfl
@[simp] theorem State.hostReset_jumpAddsVX (s : State) : s.hostReset.jumpAddsVX = s.jumpAddsVX := rfl
@[simp] theorem State.hostReset_loadStoreIncrementsI (s : State) : s.hostReset.loadStoreIncrementsI = s.loadStoreIncrementsI := rfl
@[simp] theorem State.hostReset_config (s : State) : s.hostReset.config = s.config := rfl
@[simp] theorem State.hostReset_host (s : State) : s.hostReset.host = s.host := rfl
@[simp] theorem State.hostReset_freeIndex (s : State) : s.hostReset.freeIndex = s.freeIndex := rfl
@[simp] theorem State.hostReset_outputs (s : State) : s.hostReset.outputs = s.outputs := rfl

end Sys2Proof.Machine
end

