-- ==== Sys2Proof/Laws/Memory.lean ====
section
/-! SUPPORT. Read after write, and the canonical form kept, for every memory operation. -/

namespace Sys2Proof.Machine

/-! ## Lookup -/

theorem Memory.lookup_insert (m : Memory) (a b : Nat) (v : Byte) :
    (m.insert a v).lookup b = if b = a then some v else m.lookup b := by
  induction m with
  | nil => simp [Memory.insert, Memory.lookup]
  | cons c m ih =>
    obtain ⟨k, w⟩ := c
    simp only [Memory.insert]
    split
    · simp [Memory.lookup]
    · split
      · next h => subst h; simp only [Memory.lookup]; split <;> rfl
      · next h => simp only [Memory.lookup, ih]; grind

theorem Memory.lookup_erase (m : Memory) (a b : Nat) :
    (m.erase a).lookup b = if b = a then none else m.lookup b := by
  induction m with
  | nil => simp [Memory.erase, Memory.lookup]
  | cons c m ih =>
    obtain ⟨k, w⟩ := c
    simp only [Memory.erase]
    split
    · next h => subst h; simp only [ih, Memory.lookup]; split <;> rfl
    · next h => simp only [Memory.lookup, ih]; grind

/-- Read after write, at the same address and at another. -/
theorem Memory.load_store (m : Memory) (blank blank' : Byte) (a b : Nat) (v : Byte) (h : b = a → blank' = blank) :
    (m.store blank a v).load blank' b = if b = a then v else m.load blank' b := by
  simp only [Memory.store, Memory.load]
  split
  · next hv => rw [Memory.lookup_erase]; grind
  · rw [Memory.lookup_insert]; grind

/-- A byte of live memory after a write. -/
theorem State.readByte_writeByte (s : State) (a b : Nat) (v : Byte) :
    (s.writeByte a v).readByte b = if b = a then v else s.readByte b :=
  Memory.load_store _ _ _ _ _ _ fun h => by simp [h]

/-- An address that no cell lists has no entry. -/
theorem Memory.lookup_eq_none (m : Memory) (a : Nat) (h : ∀ cell ∈ m, cell.1 ≠ a) : m.lookup a = none := by
  induction m with
  | nil => rfl
  | cons c m ih =>
    obtain ⟨k, w⟩ := c
    have hk : k ≠ a := h (k, w) (by simp)
    simp only [Memory.lookup, if_neg (Ne.symm hk)]
    exact ih fun cell hc => h cell (by simp [hc])

theorem Memory.lookup_append (m m' : Memory) (a : Nat) :
    Memory.lookup (m ++ m') a = (m.lookup a).or (m'.lookup a) := by
  induction m with
  | nil => rfl
  | cons c m ih =>
    obtain ⟨k, w⟩ := c
    simp only [List.cons_append, Memory.lookup, ih]; split <;> simp

theorem Memory.lookup_filter (m : Memory) (p : Nat → Bool) (a : Nat) :
    Memory.lookup (m.filter fun cell => p cell.1) a = if p a then m.lookup a else none := by
  induction m with
  | nil => simp [Memory.lookup]
  | cons c m ih =>
    obtain ⟨k, w⟩ := c
    simp only [List.filter_cons, Memory.lookup]
    split <;> grind [Memory.lookup]

/-! ## The canonical form -/

theorem Memory.insert_mem (m : Memory) (a : Nat) (v : Byte) (cell : Host.Cell) (h : cell ∈ m.insert a v) :
    cell = (a, v) ∨ cell ∈ m := by
  induction m with
  | nil => simpa [Memory.insert] using h
  | cons c m ih =>
    obtain ⟨k, w⟩ := c
    simp only [Memory.insert] at h
    split at h
    · simpa using h
    · split at h
      · grind
      · grind

theorem Memory.insert_rising (m : Memory) (a : Nat) (v : Byte) (h : (m.map Prod.fst).Pairwise (· < ·)) :
    ((m.insert a v).map Prod.fst).Pairwise (· < ·) := by
  induction m with
  | nil => simp [Memory.insert]
  | cons c m ih =>
    obtain ⟨k, w⟩ := c
    simp only [List.map_cons, List.pairwise_cons, List.mem_map] at h
    simp only [Memory.insert]
    split
    · next hlt =>
      simp only [List.map_cons, List.pairwise_cons, List.mem_cons, List.mem_map]
      refine ⟨?_, h⟩
      rintro b (rfl | hb)
      · exact hlt
      · exact Nat.lt_trans hlt (h.1 b hb)
    · split
      · next heq =>
        subst heq
        simpa using h
      · next hnlt hne =>
        simp only [List.map_cons, List.pairwise_cons, List.mem_map]
        refine ⟨?_, ih h.2⟩
        rintro b ⟨cell, hc, rfl⟩
        rcases Memory.insert_mem m a v cell hc with rfl | hm
        · show k < a; omega
        · exact h.1 _ ⟨cell, hm, rfl⟩

theorem Memory.erase_eq_filter (m : Memory) (a : Nat) : m.erase a = m.filter fun cell => decide (a ≠ cell.1) := by
  induction m with
  | nil => rfl
  | cons c m ih =>
    obtain ⟨k, w⟩ := c
    simp only [Memory.erase, List.filter_cons]
    split <;> simp_all

theorem Memory.filter_rising (m : Memory) (p : Host.Cell → Bool) (h : (m.map Prod.fst).Pairwise (· < ·)) :
    ((m.filter p).map Prod.fst).Pairwise (· < ·) :=
  List.Pairwise.sublist (List.Sublist.map _ List.filter_sublist) h

/-- A write keeps the addresses rising. -/
theorem Memory.store_rising (m : Memory) (blank : Byte) (a : Nat) (v : Byte) (h : (m.map Prod.fst).Pairwise (· < ·)) :
    ((m.store blank a v).map Prod.fst).Pairwise (· < ·) := by
  unfold Memory.store
  split
  · rw [Memory.erase_eq_filter]; exact Memory.filter_rising m _ h
  · exact Memory.insert_rising m a v h

/-- A cell after a write is the one written, if it differs from the blank, or was there before. -/
theorem Memory.store_mem (m : Memory) (blank : Byte) (a : Nat) (v : Byte) (cell : Host.Cell)
    (h : cell ∈ m.store blank a v) : (cell = (a, v) ∧ v ≠ blank) ∨ cell ∈ m := by
  unfold Memory.store at h
  split at h
  · rw [Memory.erase_eq_filter] at h; exact .inr (List.mem_of_mem_filter h)
  · next hv =>
    rcases Memory.insert_mem m a v cell h with rfl | hm
    · exact .inl ⟨rfl, hv⟩
    · exact .inr hm

/-- A write inside 0x000-0xFFF keeps live memory's canonical form. -/
theorem Memory.store_wf (c : Config) (m : Memory) (a : Nat) (v : Byte) (ha : a ≤ 0xFFF) (h : m.wf c) :
    (m.store (unlisted c a) a v).wf c := by
  refine ⟨Memory.store_rising m _ a v h.1, fun cell hc => ?_⟩
  rcases Memory.store_mem m _ a v cell hc with ⟨rfl, hv⟩ | hm
  · exact ⟨ha, hv⟩
  · exact h.2 cell hm

/-- A write inside 0x200-0xFFF keeps the ROM copy's canonical form. -/
theorem Memory.store_romWf (m : Memory) (a : Nat) (v : Byte) (ha : 0x200 ≤ a) (ha' : a ≤ 0xFFF) (h : m.romWf) :
    (m.store 0 a v).romWf := by
  refine ⟨Memory.store_rising m _ a v h.1, fun cell hc => ?_⟩
  rcases Memory.store_mem m _ a v cell hc with ⟨rfl, hv⟩ | hm
  · exact ⟨ha, ha', hv⟩
  · exact h.2 cell hm

/-! ## Reset and loading -/

/-- The byte at any address after Reset: kept, the font, or the ROM copy's (70_reset_and_hazards.md R291, R292). -/
theorem State.readByte_hostReset (s : State) (a : Nat) :
    s.hostReset.readByte a =
      if keptByReset a then s.readByte a
      else if inWorkRam a then s.romCopy.load 0 a
      else unlisted s.config a := by
  simp only [State.readByte, State.hostReset, Memory.load, resetMemory, Memory.lookup_append]
  rw [Memory.lookup_filter, Memory.lookup_filter]
  have hdisj : keptByReset a = true → inWorkRam a = false := by
    simp only [keptByReset, inWorkRam]; grind
  by_cases hk : keptByReset a = true
  · simp [hk, hdisj hk]
  · by_cases hw : inWorkRam a = true
    · have : unlisted s.config a = 0 := by
        simp only [inWorkRam, Bool.and_eq_true, decide_eq_true_eq] at hw
        simp [unlisted, hw.1]
      simp [hk, hw, this]
    · simp [hk, hw]

/-- Reset keeps the canonical form. -/
theorem resetMemory_wf (c : Config) (mem rom : Memory) (hm : mem.wf c) (hr : rom.romWf) : (resetMemory mem rom).wf c := by
  constructor
  · simp only [resetMemory, List.map_append, List.pairwise_append]
    refine ⟨Memory.filter_rising mem _ hm.1, Memory.filter_rising rom _ hr.1, ?_⟩
    intro x hx y hy
    simp only [List.mem_map, List.mem_filter] at hx hy
    obtain ⟨p, ⟨_, hp⟩, rfl⟩ := hx
    obtain ⟨q, ⟨_, hq⟩, rfl⟩ := hy
    simp only [keptByReset, inWorkRam] at hp hq
    grind
  · intro cell hc
    simp only [resetMemory, List.mem_append, List.mem_filter] at hc
    rcases hc with ⟨h, _⟩ | ⟨h, _⟩
    · exact hm.2 cell h
    · have := hr.2 cell h
      exact ⟨this.2.1, by simpa [unlisted, this.1] using this.2.2⟩

/-- What the ROM copy holds after an image is copied from `a` on (70_reset_and_hazards.md R294). -/
theorem copyImage_load (bytes : List Byte) : ∀ (rom : Memory) (a b : Nat),
    (copyImage rom a bytes).load 0 b =
      if a ≤ b ∧ b < a + bytes.length then bytes[b - a]?.getD 0 else rom.load 0 b := by
  induction bytes with
  | nil => intro rom a b; simp [copyImage]
  | cons v rest ih =>
    intro rom a b
    simp only [copyImage, ih, Memory.load_store _ _ _ _ _ _ (fun _ => rfl), List.length_cons]
    by_cases hb : b = a
    · subst hb; simp
    · by_cases hr : a + 1 ≤ b ∧ b < a + 1 + rest.length
      · have e : b - a = (b - (a + 1)) + 1 := by omega
        have hr' : a ≤ b ∧ b < a + (rest.length + 1) := by omega
        rw [if_pos hr, if_pos hr', e, List.getElem?_cons_succ]
      · have hr' : ¬(a ≤ b ∧ b < a + (rest.length + 1)) := by omega
        rw [if_neg hr, if_neg hr', if_neg hb]

/-- Copying an image that fits keeps the ROM copy's canonical form. -/
theorem copyImage_romWf (bytes : List Byte) : ∀ (rom : Memory) (a : Nat), 0x200 ≤ a → a + bytes.length ≤ 0x1000 →
    rom.romWf → (copyImage rom a bytes).romWf := by
  induction bytes with
  | nil => intro rom a _ _ h; exact h
  | cons v rest ih =>
    intro rom a h1 h2 h
    simp only [List.length_cons] at h2
    exact ih _ _ (by omega) (by omega) (Memory.store_romWf rom a v h1 (by omega) h)

end Sys2Proof.Machine
end

