-- ==== Sys2Proof/Laws/Ops.lean ====
section
/-! SUPPORT. For each shared operation, what it can do, said once: provers cite these instead of unfolding it. -/

namespace Sys2Proof.Machine

/-! ## Stack -/

/-- A push either fills the next free slot or overflows. -/
theorem State.push_cases (s : State) (v : Word) :
    (∃ t, s.push v = .ok t ∧ s.sp.val < 16 ∧ t.sp.val = s.sp.val + 1 ∧ t = { s with stack := t.stack, sp := t.sp } ∧
      ∀ k : Fin 16, t.stack[k.val] = if k.val = s.sp.val then v else s.stack[k.val]) ∨
    (s.push v = .error .stackOverflow ∧ s.sp.val = 16) := by
  unfold State.push
  by_cases h : s.sp.val < 16
  · left
    rw [dif_pos h]
    refine ⟨_, rfl, h, rfl, rfl, fun k => ?_⟩
    simp only [Vector.getElem_set]
    grind
  · right
    exact ⟨dif_neg h, by have := s.sp.isLt; omega⟩

/-- A pop either moves the last entry in use to pc or underflows. -/
theorem State.popPc_cases (s : State) :
    (∃ t, s.popPc = .ok t ∧ 0 < s.sp.val ∧ t.sp.val = s.sp.val - 1 ∧ s.stack[s.sp.val - 1]? = some t.pc ∧
      t = { s with sp := t.sp, pc := t.pc }) ∨
    (s.popPc = .error .stackUnderflow ∧ s.sp.val = 0) := by
  unfold State.popPc
  by_cases h : 0 < s.sp.val
  · left
    rw [if_pos h]
    exact ⟨_, rfl, h, rfl, by simp, rfl⟩
  · right
    exact ⟨if_neg h, by omega⟩

/-! ## Memory -/

theorem State.memRead_ok (s : State) {a : Nat} (h : a ≤ 0xFFF) : s.memRead a = .ok (s.readByte a) :=
  if_neg (by omega)

theorem State.memRead_error (s : State) {a : Nat} (h : 0xFFF < a) : s.memRead a = .error (.memoryOutOfRange a) :=
  if_pos h

theorem State.memWrite_ok (s : State) {a : Nat} (v : Byte) (h : a ≤ 0xFFF) : s.memWrite a v = .ok (s.writeByte a v) :=
  if_neg (by omega)

theorem State.memWrite_error (s : State) {a : Nat} (v : Byte) (h : 0xFFF < a) :
    s.memWrite a v = .error (.memoryOutOfRange a) := if_pos h

/-- Writes that all lie in memory complete, and change memory alone. -/
theorem State.memWriteAll_ok (ws : List (Nat × Byte)) : ∀ (s : State), (∀ w ∈ ws, w.1 ≤ 0xFFF) →
    ∃ t, State.memWriteAll ws s = .ok t ∧ t = { s with mem := t.mem } ∧
      (∀ a, a ∉ ws.map Prod.fst → t.readByte a = s.readByte a) ∧
      ((ws.map Prod.fst).Nodup → ∀ w ∈ ws, t.readByte w.1 = w.2) ∧ (s.mem.wf s.config → t.mem.wf s.config) := by
  induction ws with
  | nil => intro s _; exact ⟨s, rfl, rfl, fun _ _ => rfl, fun _ w hw => by simp at hw, id⟩
  | cons w ws ih =>
    obtain ⟨a, v⟩ := w
    intro s h
    have ha : a ≤ 0xFFF := h (a, v) (by simp)
    obtain ⟨t, ht, hs, hkeep, hnew, hwf⟩ := ih (s.writeByte a v) fun w hw => h w (by simp [hw])
    refine ⟨t, ?_, hs, ?_, ?_, ?_⟩
    · simp only [State.memWriteAll, State.memWrite_ok s v ha, ht]
    · intro b hb
      simp only [List.map_cons, List.mem_cons, not_or] at hb
      rw [hkeep b hb.2, State.readByte_writeByte, if_neg hb.1]
    · intro hnd w hw
      simp only [List.map_cons, List.nodup_cons] at hnd
      rcases List.mem_cons.mp hw with rfl | hw
      · rw [hkeep _ hnd.1, State.readByte_writeByte, if_pos rfl]
      · exact hnew hnd.2 w hw
    · intro hm
      exact hwf (Memory.store_wf s.config s.mem a v ha hm)

/-- The first write outside memory faults. -/
theorem State.memWriteAll_error (pre post : List (Nat × Byte)) (a : Nat) (v : Byte) : ∀ (s : State),
    (∀ w ∈ pre, w.1 ≤ 0xFFF) → 0xFFF < a →
    State.memWriteAll (pre ++ (a, v) :: post) s = .error (.memoryOutOfRange a) := by
  induction pre with
  | nil => intro s _ h; simp only [List.nil_append, State.memWriteAll, State.memWrite_error s v h]
  | cons w pre ih =>
    obtain ⟨b, u⟩ := w
    intro s h ha
    have hb : b ≤ 0xFFF := h (b, u) (by simp)
    simp only [List.cons_append, State.memWriteAll, State.memWrite_ok s u hb]
    exact ih _ (fun w hw => h w (by simp [hw])) ha

/-- Writes either all lie in memory, or fault at one that does not. -/
theorem State.memWriteAll_cases (ws : List (Nat × Byte)) (s : State) :
    ((∀ w ∈ ws, w.1 ≤ 0xFFF) ∧ ∃ t, State.memWriteAll ws s = .ok t) ∨
    (∃ w ∈ ws, 0xFFF < w.1 ∧ State.memWriteAll ws s = .error (.memoryOutOfRange w.1)) := by
  induction ws generalizing s with
  | nil => exact .inl ⟨by simp, s, rfl⟩
  | cons w ws ih =>
    obtain ⟨a, v⟩ := w
    by_cases ha : a ≤ 0xFFF
    · simp only [State.memWriteAll, State.memWrite_ok s v ha]
      rcases ih (s.writeByte a v) with ⟨h, t, ht⟩ | ⟨w, hw, hlt, he⟩
      · exact .inl ⟨by simpa using ⟨ha, fun a b hab => h (a, b) hab⟩, t, ht⟩
      · exact .inr ⟨w, by simp [hw], hlt, he⟩
    · exact .inr ⟨(a, v), by simp, by omega, by simp only [State.memWriteAll, State.memWrite_error s v (by omega : 0xFFF < a)]⟩

/-- Loads that all lie in memory complete, and change the registers named alone. -/
theorem State.loadRegsFrom_ok (base : Nat) (rs : List Reg) : ∀ (s : State), (∀ r ∈ rs, base + r.val ≤ 0xFFF) →
    ∃ t, State.loadRegsFrom base rs s = .ok t ∧ t = { s with V := t.V } ∧
      ∀ r : Reg, t.getV r = if r ∈ rs then s.readByte (base + r.val) else s.getV r := by
  induction rs with
  | nil => intro s _; exact ⟨s, rfl, rfl, by simp⟩
  | cons i rs ih =>
    intro s h
    have hi : base + i.val ≤ 0xFFF := h i (by simp)
    obtain ⟨t, ht, hs, hv⟩ := ih (s.setV i (s.readByte (base + i.val))) fun r hr => h r (by simp [hr])
    refine ⟨t, ?_, hs, ?_⟩
    · simp only [State.loadRegsFrom, State.memRead_ok s hi, ht]
    · intro r
      rw [hv r, State.getV_setV]
      simp only [List.mem_cons]
      have hread : (s.setV i (s.readByte (base + i.val))).readByte (base + r.val) = s.readByte (base + r.val) := rfl
      by_cases hr : r ∈ rs
      · simp [hr, hread]
      · by_cases hri : r = i
        · subst hri; simp [hr]
        · simp [hr, hri]

/-- The first load outside memory faults. -/
theorem State.loadRegsFrom_error (base : Nat) (pre post : List Reg) (i : Reg) : ∀ (s : State),
    (∀ r ∈ pre, base + r.val ≤ 0xFFF) → 0xFFF < base + i.val →
    State.loadRegsFrom base (pre ++ i :: post) s = .error (.memoryOutOfRange (base + i.val)) := by
  induction pre with
  | nil => intro s _ h; simp only [List.nil_append, State.loadRegsFrom, State.memRead_error s h]
  | cons r pre ih =>
    intro s h hi
    simp only [List.cons_append, State.loadRegsFrom, State.memRead_ok s (h r (by simp))]
    exact ih _ (fun q hq => h q (by simp [hq])) hi

/-- Loads either all lie in memory, or fault at one that does not. -/
theorem State.loadRegsFrom_cases (base : Nat) (rs : List Reg) (s : State) :
    ((∀ r ∈ rs, base + r.val ≤ 0xFFF) ∧ ∃ t, State.loadRegsFrom base rs s = .ok t) ∨
    (∃ r ∈ rs, 0xFFF < base + r.val ∧ State.loadRegsFrom base rs s = .error (.memoryOutOfRange (base + r.val))) := by
  induction rs generalizing s with
  | nil => exact .inl ⟨by simp, s, rfl⟩
  | cons i rs ih =>
    by_cases hi : base + i.val ≤ 0xFFF
    · simp only [State.loadRegsFrom, State.memRead_ok s hi]
      rcases ih (s.setV i (s.readByte (base + i.val))) with ⟨h, t, ht⟩ | ⟨r, hr, hlt, he⟩
      · exact .inl ⟨by simpa using ⟨hi, h⟩, t, ht⟩
      · exact .inr ⟨r, by simp [hr], hlt, he⟩
    · exact .inr ⟨i, by simp, by omega, by simp only [State.loadRegsFrom, State.memRead_error s (by omega : 0xFFF < base + i.val)]⟩

/-- V0..Vx are the registers FX55 and FX65 name. -/
@[simp] theorem mem_regsThrough (x r : Reg) : r ∈ regsThrough x ↔ r.val ≤ x.val := by
  simp [regsThrough]

theorem regsThrough_nodup (x : Reg) : (regsThrough x).Nodup :=
  (List.nodup_finRange 16).filter _

/-! ## Fetch -/

/-- Fetch answers the big-endian opcode at pc, or faults above 0xFFE. -/
theorem State.fetch_cases (s : State) :
    (s.pc.toNat ≤ 0xFFE ∧ s.fetch = .ok (opcodeOfBytes (s.readByte s.pc.toNat) (s.readByte (s.pc.toNat + 1)))) ∨
    (0xFFE < s.pc.toNat ∧ s.fetch = .error (.fetchOutOfRange s.pc)) := by
  unfold State.fetch
  by_cases h : 0xFFE < s.pc.toNat
  · exact .inr ⟨h, if_pos h⟩
  · exact .inl ⟨by omega, if_neg h⟩

/-- The seed is not fetched from. -/
@[simp] theorem State.fetch_setSeed (s : State) (v : Byte) : (s.setSeed v).fetch = s.fetch := rfl

end Sys2Proof.Machine
end

