-- ==== Sys2Proof/Laws/Draw.lean ====
section
/-! SUPPORT. What drawing a sprite does to the framebuffer, as one closed form: each pixel a set sprite bit meets is
flipped once, since no two of a sprite's cells share an index (40_display.md R100, R102). -/

namespace Sys2Proof.Machine

/-- Rows and columns of a sprite have distinct indices: eight columns never reach the next row's. -/
theorem pixelIndex_inj {vx vy : Byte} {r r' c c' : Nat} (hc : c < 8) (hc' : c' < 8)
    (h : pixelIndex vx vy r c = pixelIndex vx vy r' c') : r = r' ∧ c = c' := by
  unfold pixelIndex at h; omega

/-- The framebuffer byte after a XOR of one bit. -/
theorem Canvas.xorBit_fb (c : Canvas) (p q : Nat) (h : p < 2048) (hq : q < 2048) (bit : Bool) :
    (c.xorBit p h bit).fb[q] = if p = q ∧ bit = true then c.fb[q] ^^^ 1 else c.fb[q] := by
  unfold Canvas.xorBit
  cases bit
  · simp
  · simp only [if_true, Vector.getElem_set]
    split
    · next e => subst e; simp
    · next e => simp [e]

/-- The collision flag after a XOR of one bit. -/
theorem Canvas.xorBit_collision (c : Canvas) (p : Nat) (h : p < 2048) (bit : Bool) :
    (c.xorBit p h bit).collision = true ↔ c.collision = true ∨ (bit = true ∧ c.fb[p] = 1) := by
  unfold Canvas.xorBit
  cases bit <;> simp

/-- The columns of a row that fit draw each of their cells once. -/
theorem drawColumns_ok (vx vy : Byte) (row : Nat) (sprite : Byte) (cols : List Nat) : ∀ (c : Canvas),
    cols.Nodup → (∀ col ∈ cols, col < 8 ∧ pixelIndex vx vy row col < 2048) →
    ∃ c', drawColumns vx vy row sprite cols c = .ok c' ∧
      (∀ q, (hq : q < 2048) → c'.fb[q] =
        if ∃ col ∈ cols, pixelIndex vx vy row col = q ∧ spriteBit sprite col = true then c.fb[q] ^^^ 1 else c.fb[q]) ∧
      (c'.collision = true ↔ c.collision = true ∨ ∃ col ∈ cols, spriteBit sprite col = true ∧
        c.fb[pixelIndex vx vy row col]? = some 1) := by
  induction cols with
  | nil => intro c _ _; exact ⟨c, rfl, by simp, by simp⟩
  | cons col cols ih =>
    intro c hnd h
    obtain ⟨hcol, hp⟩ := h col (by simp)
    simp only [List.nodup_cons] at hnd
    obtain ⟨c', hc', hfb, hcoll⟩ := ih (c.xorBit _ hp (spriteBit sprite col)) hnd.2 fun k hk => h k (by simp [hk])
    have hne : ∀ k ∈ cols, pixelIndex vx vy row k ≠ pixelIndex vx vy row col := by
      intro k hk he
      have := (pixelIndex_inj (h k (by simp [hk])).1 hcol he).2
      exact hnd.1 (this ▸ hk)
    refine ⟨c', ?_, ?_, ?_⟩
    · simp only [drawColumns, dif_pos hp, hc']
    · intro q hq
      rw [hfb q hq, Canvas.xorBit_fb _ _ _ _ hq]
      by_cases hk : ∃ k ∈ cols, pixelIndex vx vy row k = q ∧ spriteBit sprite k = true
      · obtain ⟨k, hk1, hk2, hk3⟩ := hk
        have hq' : ¬ pixelIndex vx vy row col = q := fun he => hne k hk1 (hk2.trans he.symm)
        rw [if_pos ⟨k, hk1, hk2, hk3⟩, if_neg (fun he => hq' he.1), if_pos ⟨k, by simp [hk1], hk2, hk3⟩]
      · rw [if_neg hk]
        by_cases he : pixelIndex vx vy row col = q ∧ spriteBit sprite col = true
        · rw [if_pos he, if_pos ⟨col, by simp, he⟩]
        · rw [if_neg he, if_neg]
          rintro ⟨k, hk1, hk2⟩
          rcases List.mem_cons.mp hk1 with rfl | hk1
          · exact he hk2
          · exact hk ⟨k, hk1, hk2⟩
    · rw [hcoll, Canvas.xorBit_collision]
      have hsame : ∀ k ∈ cols, (c.xorBit _ hp (spriteBit sprite col)).fb[pixelIndex vx vy row k]? =
          c.fb[pixelIndex vx vy row k]? := by
        intro k hk
        have hkp := (h k (by simp [hk])).2
        rw [Vector.getElem?_eq_getElem hkp, Vector.getElem?_eq_getElem hkp, Canvas.xorBit_fb _ _ _ _ hkp,
          if_neg fun he => hne k hk he.1.symm]
      constructor
      · rintro ((h1 | h1) | ⟨k, hk, hb, hv⟩)
        · exact .inl h1
        · exact .inr ⟨col, by simp, h1.1, by rw [Vector.getElem?_eq_getElem hp, h1.2]⟩
        · exact .inr ⟨k, by simp [hk], hb, (hsame k hk) ▸ hv⟩
      · rintro (h1 | ⟨k, hk, hb, hv⟩)
        · exact .inl (.inl h1)
        · rcases List.mem_cons.mp hk with rfl | hk
          · rw [Vector.getElem?_eq_getElem hp] at hv
            exact .inl (.inr ⟨hb, Option.some.inj hv⟩)
          · exact .inr ⟨k, hk, hb, (hsame k hk).symm ▸ hv⟩

/-- The first column of a row whose index is past the framebuffer faults. -/
theorem drawColumns_error (vx vy : Byte) (row : Nat) (sprite : Byte) (pre post : List Nat) (col : Nat) : ∀ (c : Canvas),
    (∀ k ∈ pre, pixelIndex vx vy row k < 2048) → 2047 < pixelIndex vx vy row col →
    drawColumns vx vy row sprite (pre ++ col :: post) c = .error (.framebufferOutOfRange (pixelIndex vx vy row col)) := by
  induction pre with
  | nil => intro c _ h; simp only [List.nil_append, drawColumns, dif_neg (Nat.not_lt.mpr h)]
  | cons k pre ih =>
    intro c h hcol
    have hk := h k (by simp)
    simp only [List.cons_append, drawColumns, dif_pos hk]
    exact ih _ (fun q hq => h q (by simp [hq])) hcol

/-- Rows that fit draw each of their cells once. -/
theorem State.drawRows_ok (s : State) (vx vy : Byte) (rows : List Nat) : ∀ (c : Canvas),
    rows.Nodup → (∀ row ∈ rows, s.rowFits vx vy row) →
    ∃ c', s.drawRows vx vy rows c = .ok c' ∧
      (∀ q, (hq : q < 2048) → c'.fb[q] =
        if ∃ row ∈ rows, ∃ col, col < 8 ∧ pixelIndex vx vy row col = q ∧
          spriteBit (s.readByte (s.effAddr row)) col = true then c.fb[q] ^^^ 1 else c.fb[q]) ∧
      (c'.collision = true ↔ c.collision = true ∨ ∃ row ∈ rows, ∃ col, col < 8 ∧
        spriteBit (s.readByte (s.effAddr row)) col = true ∧ c.fb[pixelIndex vx vy row col]? = some 1) := by
  induction rows with
  | nil => intro c _ _; exact ⟨c, rfl, by simp, by simp⟩
  | cons row rows ih =>
    intro c hnd h
    obtain ⟨hmem, hp7⟩ := h row (by simp)
    have hp : ∀ col, col < 8 → pixelIndex vx vy row col < 2048 := by
      intro col hcol; unfold pixelIndex at hp7 ⊢; omega
    simp only [List.nodup_cons] at hnd
    obtain ⟨c1, hc1, hfb1, hcoll1⟩ := drawColumns_ok vx vy row (s.readByte (s.effAddr row)) (List.range 8) c
      List.nodup_range (by intro col hcol; rw [List.mem_range] at hcol; exact ⟨hcol, hp col hcol⟩)
    simp only [List.mem_range] at hfb1 hcoll1
    obtain ⟨c', hc', hfb, hcoll⟩ := ih c1 hnd.2 fun r hr => h r (by simp [hr])
    have hne : ∀ r ∈ rows, ∀ k, k < 8 → ∀ col, col < 8 → pixelIndex vx vy r k ≠ pixelIndex vx vy row col := by
      intro r hr k hk col hcol he
      exact hnd.1 ((pixelIndex_inj hk hcol he).1 ▸ hr)
    refine ⟨c', ?_, ?_, ?_⟩
    · simp only [State.drawRows, State.memRead_ok s hmem, hc1, hc']
    · intro q hq
      rw [hfb q hq, hfb1 q hq]
      by_cases hk : ∃ r ∈ rows, ∃ k, k < 8 ∧ pixelIndex vx vy r k = q ∧
          spriteBit (s.readByte (s.effAddr r)) k = true
      · obtain ⟨r, hr, k, hk1, hk2, hk3⟩ := hk
        have hno : ¬∃ col, col < 8 ∧ pixelIndex vx vy row col = q ∧
            spriteBit (s.readByte (s.effAddr row)) col = true := by
          rintro ⟨col, hcol, he, _⟩
          exact hne r hr k hk1 col hcol (hk2.trans he.symm)
        rw [if_pos ⟨r, hr, k, hk1, hk2, hk3⟩, if_neg hno, if_pos ⟨r, by simp [hr], k, hk1, hk2, hk3⟩]
      · rw [if_neg hk]
        by_cases he : ∃ col, col < 8 ∧ pixelIndex vx vy row col = q ∧
            spriteBit (s.readByte (s.effAddr row)) col = true
        · rw [if_pos he, if_pos ⟨row, by simp, he⟩]
        · rw [if_neg he, if_neg]
          rintro ⟨r, hr, hk2⟩
          rcases List.mem_cons.mp hr with rfl | hr
          · exact he hk2
          · exact hk ⟨r, hr, hk2⟩
    · rw [hcoll, hcoll1]
      have hsame : ∀ r ∈ rows, ∀ k, k < 8 → c1.fb[pixelIndex vx vy r k]? = c.fb[pixelIndex vx vy r k]? := by
        intro r hr k hk
        have hkp : pixelIndex vx vy r k < 2048 := by
          have := (h r (by simp [hr])).2; unfold pixelIndex at this ⊢; omega
        rw [Vector.getElem?_eq_getElem hkp, Vector.getElem?_eq_getElem hkp, hfb1 _ hkp, if_neg]
        rintro ⟨col, hcol, he, _⟩
        exact hne r hr k hk col hcol he.symm
      constructor
      · rintro ((h1 | ⟨col, hcol, hb, hv⟩) | ⟨r, hr, k, hk, hb, hv⟩)
        · exact .inl h1
        · exact .inr ⟨row, by simp, col, hcol, hb, hv⟩
        · exact .inr ⟨r, by simp [hr], k, hk, hb, (hsame r hr k hk) ▸ hv⟩
      · rintro (h1 | ⟨r, hr, k, hk, hb, hv⟩)
        · exact .inl (.inl h1)
        · rcases List.mem_cons.mp hr with rfl | hr
          · exact .inl (.inr ⟨k, hk, hb, hv⟩)
          · exact .inr ⟨r, hr, k, hk, hb, (hsame r hr k hk).symm ▸ hv⟩

/-- A sprite whose rows all fit is drawn: the framebuffer and VF change, nothing else. -/
theorem State.drawSprite_ok (s : State) (vx vy : Byte) (n : Nat) (h : ∀ row, row < n → s.rowFits vx vy row) :
    ∃ t, s.drawSprite vx vy n = .ok t ∧ t = { s with fb := t.fb, V := t.V } ∧
      (∀ q, t.pixel q = if s.spriteHits vx vy n q then s.pixel q ^^^ 1 else s.pixel q) ∧
      (t.getV VF = if s.spriteCollides vx vy n then 1 else 0) ∧ (∀ r, r ≠ VF → t.getV r = s.getV r) := by
  obtain ⟨c, hc, hfb, hcoll⟩ := s.drawRows_ok vx vy (List.range n) ⟨s.fb, false⟩ List.nodup_range
    (fun row hrow => h row (List.mem_range.mp hrow))
  simp only [List.mem_range, Bool.false_eq_true, false_or] at hfb hcoll
  unfold State.drawSprite
  rw [hc]
  refine ⟨_, rfl, rfl, fun q => ?_, ?_, fun r hr => ?_⟩
  · by_cases hq : q < 2048
    · simp only [State.pixel, State.setFlag_eq, State.setV_fb, Vector.getElem?_eq_getElem hq, Option.getD_some]
      exact hfb q hq
    · have hno : ¬ s.spriteHits vx vy n q := by
        rintro ⟨row, hrow, col, hcol, he, _⟩
        have := (h row hrow).2
        unfold pixelIndex at he this; omega
      simp [State.pixel, hno, Vector.getElem?_eq_none (Nat.not_lt.mp hq)]
  · rw [State.setFlag_eq, State.getV_setV_same, flagByte]
    congr 1
    rw [eq_iff_iff, hcoll]
    refine exists_congr fun row => and_congr_right fun hrow => exists_congr fun col => and_congr_right fun hcol =>
      and_congr_right fun _ => ?_
    have hp : pixelIndex vx vy row col < 2048 := by
      have := (h row hrow).2; unfold pixelIndex at this ⊢; omega
    simp [State.pixel, Vector.getElem?_eq_getElem hp]
  · rw [State.setFlag_eq, State.getV_setV_other _ _ hr]; rfl

/-- Rows either all fit, or the draw faults at the first that does not: at its read, or else at its first cell past the
framebuffer. -/
theorem State.drawRows_cases (s : State) (vx vy : Byte) (rows : List Nat) : ∀ (c : Canvas),
    ((∀ row ∈ rows, s.rowFits vx vy row) ∧ ∃ c', s.drawRows vx vy rows c = .ok c') ∨
    (∃ row ∈ rows, 0xFFF < s.effAddr row ∧ s.drawRows vx vy rows c = .error (.memoryOutOfRange (s.effAddr row))) ∨
    (∃ row ∈ rows, ∃ col, col < 8 ∧ s.effAddr row ≤ 0xFFF ∧ 2047 < pixelIndex vx vy row col ∧
      s.drawRows vx vy rows c = .error (.framebufferOutOfRange (pixelIndex vx vy row col))) := by
  induction rows with
  | nil => intro c; exact .inl ⟨by simp, c, rfl⟩
  | cons row rows ih =>
    intro c
    by_cases hm : s.effAddr row ≤ 0xFFF
    · by_cases hp : pixelIndex vx vy row 7 < 2048
      · obtain ⟨c1, hc1, _⟩ := drawColumns_ok vx vy row (s.readByte (s.effAddr row)) (List.range 8) c
          List.nodup_range (by intro col hcol; rw [List.mem_range] at hcol; exact ⟨hcol, by unfold pixelIndex at hp ⊢; omega⟩)
        have hstep : s.drawRows vx vy (row :: rows) c = s.drawRows vx vy rows c1 := by
          simp only [State.drawRows, State.memRead_ok s hm, hc1]
        rw [hstep]
        rcases ih c1 with ⟨h, c', hc'⟩ | ⟨r, hr, h1, h2⟩ | ⟨r, hr, col, h1⟩
        · refine .inl ⟨fun r hr => ?_, c', hc'⟩
          rcases List.mem_cons.mp hr with rfl | hr
          · exact ⟨hm, hp⟩
          · exact h r hr
        · exact .inr (.inl ⟨r, by simp [hr], h1, h2⟩)
        · exact .inr (.inr ⟨r, by simp [hr], col, h1⟩)
      · -- the first cell of this row past the framebuffer
        right; right
        have hex : ∃ k, 2047 < pixelIndex vx vy row k := ⟨7, by omega⟩
        let col := Nat.find hex
        have hcol : 2047 < pixelIndex vx vy row col := Nat.find_spec hex
        have hcol8 : col ≤ 7 := Nat.find_min' hex (by omega)
        have hpre : ∀ k, k < col → pixelIndex vx vy row k < 2048 := fun k hk => by
          have := Nat.find_min hex hk; omega
        have hsplit : List.range 8 = List.range col ++ col :: List.range' (col + 1) (7 - col) := by
          rw [← List.range'_succ, List.range_eq_range', List.range_eq_range',
            show (7 - col + 1) = 8 - col by omega]
          have := List.range'_append_1 (s := 0) (m := col) (n := 8 - col)
          rw [Nat.zero_add] at this
          rw [this]; congr 1; omega
        refine ⟨row, by simp, col, by omega, hm, hcol, ?_⟩
        have := drawColumns_error vx vy row (s.readByte (s.effAddr row)) (List.range col) (List.range' (col + 1) (7 - col))
          col c (fun k hk => hpre k (List.mem_range.mp hk)) hcol
        simp only [State.drawRows, State.memRead_ok s hm, hsplit, this]
    · exact .inr (.inl ⟨row, by simp, by omega, by
        simp only [State.drawRows, State.memRead_error s (by omega : 0xFFF < s.effAddr row)]⟩)

/-- A row that does not fit, after rows that do, faults: at its read if that is out of memory. -/
theorem State.drawRows_memory_error (s : State) (vx vy : Byte) (pre post : List Nat) (row : Nat) : ∀ (c : Canvas),
    (∀ r ∈ pre, s.rowFits vx vy r) → 0xFFF < s.effAddr row →
    s.drawRows vx vy (pre ++ row :: post) c = .error (.memoryOutOfRange (s.effAddr row)) := by
  induction pre with
  | nil => intro c _ h; simp only [List.nil_append, State.drawRows, State.memRead_error s h]
  | cons r pre ih =>
    intro c h hrow
    obtain ⟨hm, hp⟩ := h r (by simp)
    obtain ⟨c1, hc1, _⟩ := drawColumns_ok vx vy r (s.readByte (s.effAddr r)) (List.range 8) c
      List.nodup_range (by intro col hcol; rw [List.mem_range] at hcol; exact ⟨hcol, by unfold pixelIndex at hp ⊢; omega⟩)
    simp only [List.cons_append, State.drawRows, State.memRead_ok s hm, hc1]
    exact ih _ (fun q hq => h q (by simp [hq])) hrow

end Sys2Proof.Machine
end

