-- ==== Sys2Proof/Laws/Exec.lean ====
section
/-! SUPPORT. What the execute step, the Tick and a run of Ticks can do, said once over all instructions: the fields no
instruction writes, the canonical form and the pixels kept, and the two ways a Tick ends. -/

namespace Sys2Proof.Machine

/-- The fields an instruction may write, and the invariant's parts it keeps. -/
structure ExecKeeps (s t : State) : Prop where
  /-- ROM copy, keys, latch, seed, mode flags and the model's own fields are unchanged. -/
  frame : t = { s with mem := t.mem, V := t.V, I := t.I, pc := t.pc, stack := t.stack, sp := t.sp, DT := t.DT,
                       ST := t.ST, fb := t.fb }
  mem : s.mem.wf s.config → t.mem.wf s.config
  fb : s.fbBinary → t.fbBinary

theorem ExecKeeps.romCopy_eq {s t : State} (h : ExecKeeps s t) : t.romCopy = s.romCopy := by have := congrArg State.romCopy h.frame; exact this
theorem ExecKeeps.key_eq {s t : State} (h : ExecKeeps s t) : t.key = s.key := by have := congrArg State.key h.frame; exact this
theorem ExecKeeps.keyPressedThisTick_eq {s t : State} (h : ExecKeeps s t) : t.keyPressedThisTick = s.keyPressedThisTick := by have := congrArg State.keyPressedThisTick h.frame; exact this
theorem ExecKeeps.lastKey_eq {s t : State} (h : ExecKeeps s t) : t.lastKey = s.lastKey := by have := congrArg State.lastKey h.frame; exact this
theorem ExecKeeps.rndSeed_eq {s t : State} (h : ExecKeeps s t) : t.rndSeed = s.rndSeed := by have := congrArg State.rndSeed h.frame; exact this
theorem ExecKeeps.shiftUsesVY_eq {s t : State} (h : ExecKeeps s t) : t.shiftUsesVY = s.shiftUsesVY := by have := congrArg State.shiftUsesVY h.frame; exact this
theorem ExecKeeps.jumpAddsVX_eq {s t : State} (h : ExecKeeps s t) : t.jumpAddsVX = s.jumpAddsVX := by have := congrArg State.jumpAddsVX h.frame; exact this
theorem ExecKeeps.loadStoreIncrementsI_eq {s t : State} (h : ExecKeeps s t) : t.loadStoreIncrementsI = s.loadStoreIncrementsI := by have := congrArg State.loadStoreIncrementsI h.frame; exact this
theorem ExecKeeps.config_eq {s t : State} (h : ExecKeeps s t) : t.config = s.config := by have := congrArg State.config h.frame; exact this
theorem ExecKeeps.host_eq {s t : State} (h : ExecKeeps s t) : t.host = s.host := by have := congrArg State.host h.frame; exact this
theorem ExecKeeps.freeIndex_eq {s t : State} (h : ExecKeeps s t) : t.freeIndex = s.freeIndex := by have := congrArg State.freeIndex h.frame; exact this
theorem ExecKeeps.outputs_eq {s t : State} (h : ExecKeeps s t) : t.outputs = s.outputs := by have := congrArg State.outputs h.frame; exact this

/-- The invariant reads four fields. -/
theorem State.Inv.of_fields {s t : State} (h : s.Inv) (hm : t.mem = s.mem) (hr : t.romCopy = s.romCopy) (hf : t.fb = s.fb)
    (hc : t.config = s.config) : t.Inv := by
  unfold State.Inv State.fbBinary at *
  rw [hm, hr, hf, hc]; exact h

theorem ExecKeeps.of_frame {s t : State} (h : t = { s with V := t.V, I := t.I, pc := t.pc, DT := t.DT, ST := t.ST }) :
    ExecKeeps s t :=
  ⟨by rw [h], fun hm => by rw [h]; exact hm, fun hf => by rw [h]; exact hf⟩

theorem ExecKeeps.setV (s : State) (x : Reg) (v : Byte) : ExecKeeps s (s.setV x v) := .of_frame rfl
theorem ExecKeeps.setPc (s : State) (v : Word) : ExecKeeps s (s.setPc v) := .of_frame rfl
theorem ExecKeeps.setI (s : State) (v : Word) : ExecKeeps s (s.setI v) := .of_frame rfl
theorem ExecKeeps.resultThenFlag (s : State) (x : Reg) (r f : Byte) : ExecKeeps s (s.setResultThenFlag x r f) :=
  .of_frame rfl
theorem ExecKeeps.skipIf (s : State) (b : Bool) : ExecKeeps s (s.skipIf b) := by
  rw [State.skipIf_eq]; exact .setPc s _

theorem fbBinary_clear (s : State) : s.clearScreen.fbBinary := by
  intro v hv
  simp [State.clearScreen] at hv
  exact .inl hv

/-- Flipping or keeping each pixel keeps them 0 or 1. -/
theorem fbBinary_of_flips {s t : State} (h : ∀ q, t.pixel q = s.pixel q ∨ t.pixel q = s.pixel q ^^^ 1) (hs : s.fbBinary) :
    t.fbBinary := by
  intro v hv
  obtain ⟨i, hi, rfl⟩ := Vector.mem_iff_getElem.mp hv
  have hsi : s.fb[i] = 0 ∨ s.fb[i] = 1 := hs _ (Vector.getElem_mem hi)
  have := h i
  simp only [State.pixel, Vector.getElem?_eq_getElem hi, Option.getD_some] at this
  rcases this with h | h <;> rcases hsi with h' | h' <;> simp [h, h']

theorem ExecKeeps.of_drawSprite (s : State) (vx vy : Byte) (n : Nat) :
    (∃ t, s.drawSprite vx vy n = .ok t ∧ ExecKeeps s t) ∨ (∃ k, s.drawSprite vx vy n = .error k) := by
  by_cases h : ∀ row, row < n → s.rowFits vx vy row
  · obtain ⟨t, ht, hs, hp, _⟩ := s.drawSprite_ok vx vy n h
    refine .inl ⟨t, ht, by rw [hs], fun hm => by rw [hs]; exact hm, fbBinary_of_flips fun q => ?_⟩
    rw [hp]; split <;> simp
  · right
    unfold State.drawSprite
    rcases s.drawRows_cases vx vy (List.range n) ⟨s.fb, false⟩ with ⟨h', _⟩ | ⟨_, _, _, he⟩ | ⟨_, _, _, _, _, _, he⟩
    · exact absurd (fun row hrow => h' row (List.mem_range.mpr hrow)) h
    · rw [he]; exact ⟨_, rfl⟩
    · rw [he]; exact ⟨_, rfl⟩

theorem ExecKeeps.of_memWriteAll (ws : List (Nat × Byte)) (s : State) :
    (∃ t, State.memWriteAll ws s = .ok t ∧ ExecKeeps s t) ∨ (∃ k, State.memWriteAll ws s = .error k) := by
  rcases State.memWriteAll_cases ws s with ⟨h, _⟩ | ⟨_, _, _, he⟩
  · obtain ⟨t, ht, hs, _, _, hwf⟩ := State.memWriteAll_ok ws s h
    exact .inl ⟨t, ht, by rw [hs], hwf, fun hf => by rw [hs]; exact hf⟩
  · exact .inr ⟨_, he⟩

theorem ExecKeeps.of_loadRegsFrom (base : Nat) (rs : List Reg) (s : State) :
    (∃ t, State.loadRegsFrom base rs s = .ok t ∧ ExecKeeps s t) ∨ (∃ k, State.loadRegsFrom base rs s = .error k) := by
  rcases State.loadRegsFrom_cases base rs s with ⟨h, _⟩ | ⟨_, _, _, he⟩
  · obtain ⟨t, ht, hs, _⟩ := State.loadRegsFrom_ok base rs s h
    exact .inl ⟨t, ht, .of_frame (by rw [hs])⟩
  · exact .inr ⟨_, he⟩

theorem ExecKeeps.trans_bumpI {s t : State} (h : ExecKeeps s t) (x : Reg) : ExecKeeps s (t.bumpI x) := by
  rw [State.bumpI_eq]
  refine ⟨?_, h.mem, h.fb⟩
  have := h.frame
  simp only [State.setI]
  rw [this]

/-- Every instruction either completes, keeping what `ExecKeeps` says, or raises one fault. -/
theorem exec_cases (i : Instr) (s : State) :
    (∃ t, exec i s = .next t ∧ ExecKeeps s t) ∨ (∃ k, exec i s = .fault (.raised k)) := by
  cases i with
  | cls => exact .inl ⟨_, rfl, rfl, id, fun _ => fbBinary_clear s⟩
  | ret =>
    rcases s.popPc_cases with ⟨t, ht, _, _, _, hs⟩ | ⟨he, _⟩
    · exact .inl ⟨t, by simp only [exec, execRet, ht, finish], by rw [hs], fun h => by rw [hs]; exact h,
        fun h => by rw [hs]; exact h⟩
    · exact .inr ⟨.stackUnderflow, by simp only [exec, execRet, he, finish, raise]⟩
  | jp nnn => exact .inl ⟨_, rfl, .setPc s _⟩
  | call nnn =>
    rcases s.push_cases s.pc with ⟨t, ht, _, _, hs, _⟩ | ⟨he, _⟩
    · exact .inl ⟨t.jumpTo (nnn.setWidth 16), by simp only [exec, execCall, ht], by rw [hs]; rfl,
        fun h => by rw [hs]; exact h, fun h => by rw [hs]; exact h⟩
    · exact .inr ⟨.stackOverflow, by simp only [exec, execCall, he, raise]⟩
  | seImm x nn => exact .inl ⟨_, rfl, .skipIf s _⟩
  | sneImm x nn => exact .inl ⟨_, rfl, .skipIf s _⟩
  | seReg x y => exact .inl ⟨_, rfl, .skipIf s _⟩
  | ldImm x nn => exact .inl ⟨_, rfl, .setV s x _⟩
  | addImm x nn => exact .inl ⟨_, rfl, .setV s x _⟩
  | ldReg x y => exact .inl ⟨_, rfl, .setV s x _⟩
  | orReg x y => exact .inl ⟨_, rfl, .setV s x _⟩
  | andReg x y => exact .inl ⟨_, rfl, .setV s x _⟩
  | xorReg x y => exact .inl ⟨_, rfl, .setV s x _⟩
  | addReg x y => exact .inl ⟨_, rfl, .resultThenFlag s x _ _⟩
  | sub x y => exact .inl ⟨_, rfl, .resultThenFlag s x _ _⟩
  | shr x y => exact .inl ⟨_, rfl, .resultThenFlag s x _ _⟩
  | subn x y => exact .inl ⟨_, rfl, .resultThenFlag s x _ _⟩
  | shl x y => exact .inl ⟨_, rfl, .resultThenFlag s x _ _⟩
  | sneReg x y => exact .inl ⟨_, rfl, .skipIf s _⟩
  | ldI nnn => exact .inl ⟨_, rfl, .setI s _⟩
  | jpOff nnn x => exact .inl ⟨_, rfl, .setPc s _⟩
  | rnd x nn => exact .inl ⟨_, rfl, .setV s x _⟩
  | drw x y n =>
    rcases ExecKeeps.of_drawSprite s (s.getV x) (s.getV y) n.val with ⟨t, ht, hk⟩ | ⟨k, he⟩
    · exact .inl ⟨t, by simp only [exec, execDrw, ht, finish], hk⟩
    · exact .inr ⟨k, by simp only [exec, execDrw, he, finish, raise]⟩
  | skp x => exact .inl ⟨_, rfl, .skipIf s _⟩
  | sknp x => exact .inl ⟨_, rfl, .skipIf s _⟩
  | ldVxDT x => exact .inl ⟨_, rfl, .setV s x _⟩
  | ldVxK x =>
    refine .inl ⟨_, rfl, ?_⟩
    split
    · exact .setV s x _
    · exact .setPc s _
  | ldDTVx x => exact .inl ⟨_, rfl, .of_frame rfl⟩
  | ldSTVx x => exact .inl ⟨_, rfl, .of_frame rfl⟩
  | addI x => exact .inl ⟨_, rfl, .setI s _⟩
  | ldF x => exact .inl ⟨_, rfl, .setI s _⟩
  | ldB x =>
    rcases ExecKeeps.of_memWriteAll (s.bcdWrites x) s with ⟨t, ht, hk⟩ | ⟨k, he⟩
    · exact .inl ⟨t, by simp only [exec, execLdB, ht, finish], hk⟩
    · exact .inr ⟨k, by simp only [exec, execLdB, he, finish, raise]⟩
  | storeRegs x =>
    rcases ExecKeeps.of_memWriteAll (s.storeWrites x) s with ⟨t, ht, hk⟩ | ⟨k, he⟩
    · exact .inl ⟨t.bumpI x, by simp only [exec, execStoreRegs, ht], hk.trans_bumpI x⟩
    · exact .inr ⟨k, by simp only [exec, execStoreRegs, he, raise]⟩
  | loadRegs x =>
    rcases ExecKeeps.of_loadRegsFrom (s.effAddr 0) (regsThrough x) s with ⟨t, ht, hk⟩ | ⟨k, he⟩
    · exact .inl ⟨t.bumpI x, by simp only [exec, execLoadRegs, ht], hk.trans_bumpI x⟩
    · exact .inr ⟨k, by simp only [exec, execLoadRegs, he, raise]⟩

/-- How a Tick ends: with the end steps applied to what an instruction or an unknown opcode leaves, or with the record of
one raised fault. -/
theorem tick_cases (cycleCounter : Nat) (s : State) :
    (0xFFE < s.pc.toNat ∧ tick cycleCounter s = .fault (.faulted (.fetchOutOfRange s.pc) none s)) ∨
    (∃ op i t, s.fetch = .ok op ∧ decode op = .instr i ∧ exec i (s.setSeed (seedOf cycleCounter)) = .next t ∧
      ExecKeeps (s.setSeed (seedOf cycleCounter)) t ∧ tick cycleCounter s = .next t.endTick) ∨
    (∃ op i k, s.fetch = .ok op ∧ decode op = .instr i ∧
      exec i (s.setSeed (seedOf cycleCounter)) = .fault (.raised k) ∧
      tick cycleCounter s = .fault (.faulted k (some op) s)) ∨
    (∃ op, s.fetch = .ok op ∧ decode op = .unknown op ∧
      tick cycleCounter s = .next ((s.setSeed (seedOf cycleCounter)).emit (.logUnknownOpcode op)).endTick) := by
  have hunk : ∀ op op', decode op = .unknown op' → op' = op := by
    intro op op' h
    unfold decode decode0 decode8 decodeE decodeF at h
    split at h
    all_goals first
      | cases h
      | (split at h <;> cases h; rfl)
  rcases s.fetch_cases with ⟨_, hf⟩ | ⟨hpc, hf⟩
  · right
    generalize opcodeOfBytes _ _ = op at hf
    cases hd : decode op with
    | instr i =>
      rcases exec_cases i (s.setSeed (seedOf cycleCounter)) with ⟨t, ht, hk⟩ | ⟨k, hk⟩
      · exact .inl ⟨op, i, t, hf, hd, ht, hk, by
          simp only [tick, State.fetch_setSeed, hf, hd, execDecoded, ht, finishTick]⟩
      · exact .inr (.inl ⟨op, i, k, hf, hd, hk, by
          simp only [tick, State.fetch_setSeed, hf, hd, execDecoded, hk, finishTick, Fault.record]⟩)
    | unknown op' =>
      obtain rfl := hunk op op' hd
      exact .inr (.inr ⟨op', hf, hd, by
        simp only [tick, State.fetch_setSeed, hf, hd, execDecoded, execUnknown, finishTick]⟩)
  · exact .inl ⟨hpc, by simp only [tick, State.fetch_setSeed, hf, Fault.record]⟩

end Sys2Proof.Machine
end

