-- ==== Sys2Proof/Laws/PerInstr.lean ====
section
/-! SUPPORT. Facts about every instruction as syntax, one lemma per constructor. -/

namespace Sys2Proof.Laws

/-- The encoder writes an instruction's word inside its row of the opcode map (30_encoding.md R81). -/
def EncodedInRow.Statement (i : Instr) : Prop := i.row.selects (encode i) = true

namespace EncodedInRow

/-- A row selects a word when the masked word, as a number, is the row's value. -/
theorem of_toNat {op mask value : Word} (h : (op &&& mask).toNat = value.toNat) : (op &&& mask == value) = true :=
  beq_iff_eq.mpr (BitVec.eq_of_toNat_eq h)

theorem cls : Statement (.cls) := by
  exact of_toNat ((and_maskF0FF _).trans (by simp [encode, Instr.row, wordXNN_toNat]))
theorem ret : Statement (.ret) := by
  exact of_toNat ((and_maskF0FF _).trans (by simp [encode, Instr.row, wordXNN_toNat]))
theorem jp : ∀ a, Statement (.jp a) := by
  intro a
  exact of_toNat ((and_maskF000 _).trans (by simp [encode, Instr.row, wordNNN_toNat]; omega))
theorem call : ∀ a, Statement (.call a) := by
  intro a
  exact of_toNat ((and_maskF000 _).trans (by simp [encode, Instr.row, wordNNN_toNat]; omega))
theorem seImm : ∀ a b, Statement (.seImm a b) := by
  intro a b
  exact of_toNat ((and_maskF000 _).trans (by simp [encode, Instr.row, wordXNN_toNat]; omega))
theorem sneImm : ∀ a b, Statement (.sneImm a b) := by
  intro a b
  exact of_toNat ((and_maskF000 _).trans (by simp [encode, Instr.row, wordXNN_toNat]; omega))
theorem seReg : ∀ a b, Statement (.seReg a b) := by
  intro a b
  exact of_toNat ((and_maskF000 _).trans (by simp [encode, Instr.row, wordXYN_toNat]; omega))
theorem ldImm : ∀ a b, Statement (.ldImm a b) := by
  intro a b
  exact of_toNat ((and_maskF000 _).trans (by simp [encode, Instr.row, wordXNN_toNat]; omega))
theorem addImm : ∀ a b, Statement (.addImm a b) := by
  intro a b
  exact of_toNat ((and_maskF000 _).trans (by simp [encode, Instr.row, wordXNN_toNat]; omega))
theorem ldReg : ∀ a b, Statement (.ldReg a b) := by
  intro a b
  exact of_toNat ((and_maskF00F _).trans (by simp [encode, Instr.row, wordXYN_toNat]; omega))
theorem orReg : ∀ a b, Statement (.orReg a b) := by
  intro a b
  exact of_toNat ((and_maskF00F _).trans (by simp [encode, Instr.row, wordXYN_toNat]; omega))
theorem andReg : ∀ a b, Statement (.andReg a b) := by
  intro a b
  exact of_toNat ((and_maskF00F _).trans (by simp [encode, Instr.row, wordXYN_toNat]; omega))
theorem xorReg : ∀ a b, Statement (.xorReg a b) := by
  intro a b
  exact of_toNat ((and_maskF00F _).trans (by simp [encode, Instr.row, wordXYN_toNat]; omega))
theorem addReg : ∀ a b, Statement (.addReg a b) := by
  intro a b
  exact of_toNat ((and_maskF00F _).trans (by simp [encode, Instr.row, wordXYN_toNat]; omega))
theorem sub : ∀ a b, Statement (.sub a b) := by
  intro a b
  exact of_toNat ((and_maskF00F _).trans (by simp [encode, Instr.row, wordXYN_toNat]; omega))
theorem shr : ∀ a b, Statement (.shr a b) := by
  intro a b
  exact of_toNat ((and_maskF00F _).trans (by simp [encode, Instr.row, wordXYN_toNat]; omega))
theorem subn : ∀ a b, Statement (.subn a b) := by
  intro a b
  exact of_toNat ((and_maskF00F _).trans (by simp [encode, Instr.row, wordXYN_toNat]; omega))
theorem shl : ∀ a b, Statement (.shl a b) := by
  intro a b
  exact of_toNat ((and_maskF00F _).trans (by simp [encode, Instr.row, wordXYN_toNat]; omega))
theorem sneReg : ∀ a b, Statement (.sneReg a b) := by
  intro a b
  exact of_toNat ((and_maskF000 _).trans (by simp [encode, Instr.row, wordXYN_toNat]; omega))
theorem ldI : ∀ a, Statement (.ldI a) := by
  intro a
  exact of_toNat ((and_maskF000 _).trans (by simp [encode, Instr.row, wordNNN_toNat]; omega))
theorem jpOff : ∀ a b, Statement (.jpOff a b) := by
  intro a b
  exact of_toNat ((and_maskF000 _).trans (by simp [encode, Instr.row, wordNNN_toNat]; omega))
theorem rnd : ∀ a b, Statement (.rnd a b) := by
  intro a b
  exact of_toNat ((and_maskF000 _).trans (by simp [encode, Instr.row, wordXNN_toNat]; omega))
theorem drw : ∀ a b c, Statement (.drw a b c) := by
  intro a b c
  exact of_toNat ((and_maskF000 _).trans (by simp [encode, Instr.row, wordXYN_toNat]; omega))
theorem skp : ∀ a, Statement (.skp a) := by
  intro a
  exact of_toNat ((and_maskF0FF _).trans (by simp [encode, Instr.row, wordXNN_toNat]; omega))
theorem sknp : ∀ a, Statement (.sknp a) := by
  intro a
  exact of_toNat ((and_maskF0FF _).trans (by simp [encode, Instr.row, wordXNN_toNat]; omega))
theorem ldVxDT : ∀ a, Statement (.ldVxDT a) := by
  intro a
  exact of_toNat ((and_maskF0FF _).trans (by simp [encode, Instr.row, wordXNN_toNat]; omega))
theorem ldVxK : ∀ a, Statement (.ldVxK a) := by
  intro a
  exact of_toNat ((and_maskF0FF _).trans (by simp [encode, Instr.row, wordXNN_toNat]; omega))
theorem ldDTVx : ∀ a, Statement (.ldDTVx a) := by
  intro a
  exact of_toNat ((and_maskF0FF _).trans (by simp [encode, Instr.row, wordXNN_toNat]; omega))
theorem ldSTVx : ∀ a, Statement (.ldSTVx a) := by
  intro a
  exact of_toNat ((and_maskF0FF _).trans (by simp [encode, Instr.row, wordXNN_toNat]; omega))
theorem addI : ∀ a, Statement (.addI a) := by
  intro a
  exact of_toNat ((and_maskF0FF _).trans (by simp [encode, Instr.row, wordXNN_toNat]; omega))
theorem ldF : ∀ a, Statement (.ldF a) := by
  intro a
  exact of_toNat ((and_maskF0FF _).trans (by simp [encode, Instr.row, wordXNN_toNat]; omega))
theorem ldB : ∀ a, Statement (.ldB a) := by
  intro a
  exact of_toNat ((and_maskF0FF _).trans (by simp [encode, Instr.row, wordXNN_toNat]; omega))
theorem storeRegs : ∀ a, Statement (.storeRegs a) := by
  intro a
  exact of_toNat ((and_maskF0FF _).trans (by simp [encode, Instr.row, wordXNN_toNat]; omega))
theorem loadRegs : ∀ a, Statement (.loadRegs a) := by
  intro a
  exact of_toNat ((and_maskF0FF _).trans (by simp [encode, Instr.row, wordXNN_toNat]; omega))

end EncodedInRow

end Sys2Proof.Laws
end

