-- ==== Sys2Proof/Tests/Slice0.lean ====
section
/-! SUPPORT. Tests. Expected results are spec/95_test_vectors.md's (its row named beside each) or its rules'. -/

namespace Sys2Proof.Tests

set_option Elab.async false

open Sys2Proof Sys2Proof.Machine

/-! ## Helpers -/

/-- The reset state with these registers. -/
def vm (regs : List (Reg × Byte)) : State := regs.foldl (fun s p => s.setV p.1 p.2) State.reset

/-- `s` with these bytes in memory. -/
def poke (s : State) (cells : List (Nat × Byte)) : State := cells.foldl (fun t p => t.writeByte p.1 p.2) s

/-- The step that runs the word at the next fetch. -/
def run (w : Nat) (s : State) : Result := step (s.withFetchWord 16 w)

/-- A next state that satisfies `p`. -/
def gives (r : Result) (p : State → Bool) : Bool :=
  match r with
  | .next t => p t
  | .fault _ => false
  | .refused _ => false

/-- A recorded fault of this kind. -/
def faults (r : Result) (k : FaultKind) : Bool :=
  match r with
  | .fault (.faulted k' _ _) => k' == k
  | .fault (.raised k') => k' == k
  | .next _ => false
  | .refused _ => false

theorem next_satisfies_of_gives {r : Result} {p : State → Bool} (h : gives r p = true) : ∃ t, r = .next t ∧ p t = true := by
  cases r with
  | next t => exact ⟨t, rfl, h⟩
  | fault f => simp [gives] at h
  | refused r => simp [gives] at h

theorem next_of_gives {r : Result} {p : State → Bool} (h : gives r p = true) : ∃ t, r = .next t :=
  let ⟨t, ht, _⟩ := next_satisfies_of_gives h
  ⟨t, ht⟩

/-! ## Well-formedness and the host's readings -/

theorem test_wf_refuses_offset_register : Instr.wf (.jpOff 0x210 3) = false := by decide
theorem test_wf_accepts_offset_register : Instr.wf (.jpOff 0x210 2) = true := by decide
theorem test_table_word_reads_instruction : decodeTableWord 16 0x8126 = some (.shr 1 2) := by decide
theorem test_table_word_unknown : decodeTableWord 16 0x0123 = none := by decide
theorem test_fetch_word_is_big_endian :
    (State.reset.withFetchWord 16 0xA22A).readByte 0x200 = 0xA2 ∧ (State.reset.withFetchWord 16 0xA22A).readByte 0x201 = 0x2A := by
  decide +kernel
theorem test_fetch_word_is_fetched : (State.reset.withFetchWord 16 0xA22A).fetch.toOption = some 0xA22A := by decide +kernel

/-! ## Decoding, from the encodings of 30_encoding.md R81 written bit by bit -/

theorem test_decode_cls : decode (0b0000000011100000 : Word) = .instr (.cls) := by decide
theorem test_decode_ret : decode (0b0000000011101110 : Word) = .instr (.ret) := by decide
theorem test_decode_jp : decode (0b0001001000110100 : Word) = .instr (.jp 0x234) := by decide
theorem test_decode_call : decode (0b0010001100000000 : Word) = .instr (.call 0x300) := by decide
theorem test_decode_seImm : decode (0b0011001100010010 : Word) = .instr (.seImm 3 0x12) := by decide
theorem test_decode_sneImm : decode (0b0100001100010011 : Word) = .instr (.sneImm 3 0x13) := by decide
theorem test_decode_seReg : decode (0b0101000100100000 : Word) = .instr (.seReg 1 2) := by decide
theorem test_decode_ldImm : decode (0b0110101010011100 : Word) = .instr (.ldImm 0xA 0x9C) := by decide
theorem test_decode_addImm : decode (0b0111000100000011 : Word) = .instr (.addImm 1 0x03) := by decide
theorem test_decode_ldReg : decode (0b1000000100100000 : Word) = .instr (.ldReg 1 2) := by decide
theorem test_decode_orReg : decode (0b1000000100100001 : Word) = .instr (.orReg 1 2) := by decide
theorem test_decode_andReg : decode (0b1000000100100010 : Word) = .instr (.andReg 1 2) := by decide
theorem test_decode_xorReg : decode (0b1000000100100011 : Word) = .instr (.xorReg 1 2) := by decide
theorem test_decode_addReg : decode (0b1000000100100100 : Word) = .instr (.addReg 1 2) := by decide
theorem test_decode_sub : decode (0b1000000100100101 : Word) = .instr (.sub 1 2) := by decide
theorem test_decode_shr : decode (0b1000000100100110 : Word) = .instr (.shr 1 2) := by decide
theorem test_decode_subn : decode (0b1000000100100111 : Word) = .instr (.subn 1 2) := by decide
theorem test_decode_shl : decode (0b1000000100101110 : Word) = .instr (.shl 1 2) := by decide
theorem test_decode_sneReg : decode (0b1001000100100000 : Word) = .instr (.sneReg 1 2) := by decide
theorem test_decode_ldI : decode (0b1010001000101010 : Word) = .instr (.ldI 0x22A) := by decide
theorem test_decode_jpOff : decode (0b1011001000010000 : Word) = .instr (.jpOff 0x210 2) := by decide
theorem test_decode_rnd : decode (0b1100001100001111 : Word) = .instr (.rnd 3 0x0F) := by decide
theorem test_decode_drw : decode (0b1101000000010101 : Word) = .instr (.drw 0 1 5) := by decide
theorem test_decode_skp : decode (0b1110000110011110 : Word) = .instr (.skp 1) := by decide
theorem test_decode_sknp : decode (0b1110000110100001 : Word) = .instr (.sknp 1) := by decide
theorem test_decode_ldVxDT : decode (0b1111001100000111 : Word) = .instr (.ldVxDT 3) := by decide
theorem test_decode_ldVxK : decode (0b1111010100001010 : Word) = .instr (.ldVxK 5) := by decide
theorem test_decode_ldDTVx : decode (0b1111001000010101 : Word) = .instr (.ldDTVx 2) := by decide
theorem test_decode_ldSTVx : decode (0b1111001000011000 : Word) = .instr (.ldSTVx 2) := by decide
theorem test_decode_addI : decode (0b1111010000011110 : Word) = .instr (.addI 4) := by decide
theorem test_decode_ldF : decode (0b1111001000101001 : Word) = .instr (.ldF 2) := by decide
theorem test_decode_ldB : decode (0b1111010100110011 : Word) = .instr (.ldB 5) := by decide
theorem test_decode_storeRegs : decode (0b1111001101010101 : Word) = .instr (.storeRegs 3) := by decide
theorem test_decode_loadRegs : decode (0b1111000101100101 : Word) = .instr (.loadRegs 1) := by decide

/-! ## Instructions, one step each -/

/-- E5 -/
theorem test_cls : gives (run 0x00E0 { State.reset with fb := Vector.replicate 2048 1 }) (fun t => t.pixel 0 == 0 && t.pixel 2047 == 0 && t.pc == 0x202) = true := by decide +kernel
/-- D5 -/
theorem test_drw_spills_to_next_row : gives (run 0xD011 { poke (vm [(0, 62)]) [(0x300, 0xFF)] with I := 0x300 }) (fun t => t.pixel 61 == 0 && t.pixel 62 == 1 && t.pixel 64 == 1 && t.pixel 69 == 1 && t.pixel 70 == 0 && t.getV VF == 0) = true := by decide +kernel
/-- D3 -/
theorem test_drw_collision : gives (run 0xD011 { poke (vm []) [(0x300, 0x80)] with I := 0x300, fb := (Vector.replicate 2048 0).set 0 1 }) (fun t => t.pixel 0 == 0 && t.getV VF == 1) = true := by decide +kernel
/-- C6 -/
theorem test_ret : gives (run 0x00EE { State.reset with pc := 0x300, sp := 1, stack := (Vector.replicate 16 0).set 0 0x200 }) (fun t => t.pc == 0x202 && t.sp == 0 && t.stack[0] == 0x200) = true := by decide +kernel
/-- C8 -/
theorem test_ret_underflow : faults (run 0x00EE State.reset) (.stackUnderflow) = true := by decide +kernel
/-- C2 -/
theorem test_jp_to_zero : gives (run 0x1000 State.reset) (fun t => t.pc == 0) = true := by decide +kernel
/-- C9 -/
theorem test_call_sixteenth : gives (run 0x2300 { State.reset with sp := 15 }) (fun t => t.pc == 0x300 && t.sp == 16 && t.stack[15] == 0x200) = true := by decide +kernel
/-- C7 -/
theorem test_call_overflow : faults (run 0x2300 { State.reset with sp := 16 }) (.stackOverflow) = true := by decide +kernel
/-- C10 -/
theorem test_seImm : gives (run 0x3312 (vm [(3, 0x12)])) (fun t => t.pc == 0x204) = true := by decide +kernel
/-- C11 -/
theorem test_seImm_not_taken : gives (run 0x3313 (vm [(3, 0x12)])) (fun t => t.pc == 0x202) = true := by decide +kernel
/-- C12 -/
theorem test_sneImm : gives (run 0x4313 (vm [(3, 0x12)])) (fun t => t.pc == 0x204) = true := by decide +kernel
/-- C13 -/
theorem test_sneImm_not_taken : gives (run 0x4312 (vm [(3, 0x12)])) (fun t => t.pc == 0x202) = true := by decide +kernel
/-- C15 -/
theorem test_seReg_ignores_low_nibble : gives (run 0x5121 (vm [(1, 7), (2, 7)])) (fun t => t.pc == 0x204) = true := by decide +kernel
/-- C16 -/
theorem test_seReg_not_taken : gives (run 0x5120 (vm [(1, 7), (2, 8)])) (fun t => t.pc == 0x202) = true := by decide +kernel
/-- C17 -/
theorem test_sneReg : gives (run 0x9120 (vm [(1, 7), (2, 8)])) (fun t => t.pc == 0x204) = true := by decide +kernel
/-- C18 -/
theorem test_sneReg_same : gives (run 0x9110 State.reset) (fun t => t.pc == 0x202) = true := by decide +kernel
/-- C20 -/
theorem test_jpOff_mode_a : gives (run 0xB210 (vm [(0, 1), (2, 5)])) (fun t => t.pc == 0x211) = true := by decide +kernel
/-- C21 -/
theorem test_jpOff_mode_b : gives (run 0xB210 { vm [(0, 1), (2, 5)] with jumpAddsVX := true }) (fun t => t.pc == 0x215) = true := by decide +kernel
/-- A1 -/
theorem test_ldImm : gives (run 0x6A9C State.reset) (fun t => t.getV 0xA == 0x9C && t.pc == 0x202) = true := by decide +kernel
/-- A4 -/
theorem test_addImm_keeps_flag : gives (run 0x7001 (vm [(0, 0xFF), (15, 0x33)])) (fun t => t.getV 0 == 0 && t.getV VF == 0x33) = true := by decide +kernel
/-- A5 -/
theorem test_ldReg : gives (run 0x8120 (vm [(2, 0x33)])) (fun t => t.getV 1 == 0x33) = true := by decide +kernel
/-- A6 -/
theorem test_orReg_keeps_flag : gives (run 0x8121 (vm [(1, 0x0F), (2, 0xF0), (15, 0x55)])) (fun t => t.getV 1 == 0xFF && t.getV VF == 0x55) = true := by decide +kernel
/-- A7 -/
theorem test_andReg : gives (run 0x8122 (vm [(1, 0x3C), (2, 0x0F)])) (fun t => t.getV 1 == 0x0C) = true := by decide +kernel
/-- A8 -/
theorem test_xorReg : gives (run 0x8123 (vm [(1, 0x3C), (2, 0x0F)])) (fun t => t.getV 1 == 0x33) = true := by decide +kernel
/-- A10 -/
theorem test_addReg_carry : gives (run 0x8124 (vm [(1, 0xF0), (2, 0x20)])) (fun t => t.getV 1 == 0x10 && t.getV VF == 1) = true := by decide +kernel
/-- A12 -/
theorem test_addReg_flag_wins : gives (run 0x8F14 (vm [(15, 0xFF), (1, 1)])) (fun t => t.getV VF == 1) = true := by decide +kernel
/-- A17 -/
theorem test_sub_equal : gives (run 0x8125 (vm [(1, 5), (2, 5)])) (fun t => t.getV 1 == 0 && t.getV VF == 0) = true := by decide +kernel
/-- A18 -/
theorem test_sub_borrow : gives (run 0x8125 (vm [(1, 1), (2, 2)])) (fun t => t.getV 1 == 0xFF && t.getV VF == 0) = true := by decide +kernel
/-- A19 -/
theorem test_shr_of_x : gives (run 0x8126 (vm [(1, 5), (2, 0x80)])) (fun t => t.getV 1 == 2 && t.getV VF == 1) = true := by decide +kernel
/-- A21 -/
theorem test_shr_of_y : gives (run 0x8126 { vm [(1, 5), (2, 0x80)] with shiftUsesVY := true }) (fun t => t.getV 1 == 0x40 && t.getV VF == 0 && t.getV 2 == 0x80) = true := by decide +kernel
/-- A23 -/
theorem test_subn_borrow : gives (run 0x8127 (vm [(1, 5), (2, 3)])) (fun t => t.getV 1 == 0xFE && t.getV VF == 0) = true := by decide +kernel
/-- A24 -/
theorem test_subn_equal : gives (run 0x8127 (vm [(1, 5), (2, 5)])) (fun t => t.getV 1 == 0 && t.getV VF == 1) = true := by decide +kernel
/-- A26 -/
theorem test_shl_of_x : gives (run 0x810E (vm [(1, 0x81)])) (fun t => t.getV 1 == 2 && t.getV VF == 1) = true := by decide +kernel
/-- A28 -/
theorem test_shl_of_y : gives (run 0x812E { vm [(1, 1), (2, 0x80)] with shiftUsesVY := true }) (fun t => t.getV 1 == 0 && t.getV VF == 1) = true := by decide +kernel
/-- A29 -/
theorem test_rnd : gives (tick 0x1234 (State.reset.withFetchWord 16 0xC30F)) (fun t => t.getV 3 == 0x04) = true := by decide +kernel
/-- M1 -/
theorem test_ldI : gives (run 0xA22A State.reset) (fun t => t.I == 0x22A) = true := by decide +kernel
/-- M3 -/
theorem test_addI_unmasked : gives (run 0xF01E { vm [(0, 1)] with I := 0xFFF }) (fun t => t.I == 0x1000 && t.getV VF == 0) = true := by decide +kernel
/-- M4 -/
theorem test_addI_wraps : gives (run 0xF01E { vm [(0, 1)] with I := 0xFFFF }) (fun t => t.I == 0) = true := by decide +kernel
/-- M5 -/
theorem test_ldF : gives (run 0xF229 (vm [(2, 0x0A)])) (fun t => t.I == 0x082) = true := by decide +kernel
/-- M6 -/
theorem test_ldF_out_of_range : gives (run 0xF229 { vm [(2, 0x10)] with I := 0x123 }) (fun t => t.I == 0x123) = true := by decide +kernel
/-- M8 -/
theorem test_ldB : gives (run 0xF533 { vm [(5, 0x9C)] with I := 0x300 }) (fun t => t.readByte 0x300 == 1 && t.readByte 0x301 == 5 && t.readByte 0x302 == 6 && t.I == 0x300) = true := by decide +kernel
/-- M11 -/
theorem test_ldB_out_of_range : faults (run 0xF533 { vm [(5, 0x9C)] with I := 0xFFE }) (.memoryOutOfRange 0x1000) = true := by decide +kernel
/-- M12 -/
theorem test_storeRegs_increments : gives (run 0xF355 { vm [(0, 1), (1, 2), (2, 3), (3, 4)] with I := 0x300, loadStoreIncrementsI := true }) (fun t => t.readByte 0x300 == 1 && t.readByte 0x303 == 4 && t.readByte 0x304 == 0 && t.I == 0x303) = true := by decide +kernel
/-- M14 -/
theorem test_storeRegs_overwrites_font : gives (run 0xF055 { State.reset with I := 0x050 }) (fun t => t.readByte 0x050 == 0 && t.I == 0x050) = true := by decide +kernel
/-- M16 -/
theorem test_loadRegs_increments : gives (run 0xF165 { poke State.reset [(0x300, 0xAA), (0x301, 0xBB)] with I := 0x300, loadStoreIncrementsI := true }) (fun t => t.getV 0 == 0xAA && t.getV 1 == 0xBB && t.I == 0x301) = true := by decide +kernel
/-- M17 -/
theorem test_loadRegs_loads_flag_register : gives (run 0xFF65 { poke State.reset [(0x301, 1), (0x30F, 0x0F)] with I := 0x300 }) (fun t => t.getV 1 == 1 && t.getV VF == 0x0F && t.I == 0x300) = true := by decide +kernel
/-- K1 -/
theorem test_skp_pressed : gives (run 0xE19E { vm [(1, 4)] with key := (Vector.replicate 16 false).set 4 true }) (fun t => t.pc == 0x204) = true := by decide +kernel
/-- K3 -/
theorem test_skp_out_of_range : gives (run 0xE19E (vm [(1, 0x10)])) (fun t => t.pc == 0x202) = true := by decide +kernel
/-- K4 -/
theorem test_sknp_released : gives (run 0xE1A1 (vm [(1, 4)])) (fun t => t.pc == 0x204) = true := by decide +kernel
/-- K5 -/
theorem test_sknp_out_of_range : gives (run 0xE1A1 (vm [(1, 0x10)])) (fun t => t.pc == 0x202) = true := by decide +kernel
/-- K6 -/
theorem test_ldVxDT_before_decrement : gives (run 0xF307 { State.reset with DT := 0x10 }) (fun t => t.getV 3 == 0x10 && t.DT == 0x0F) = true := by decide +kernel
/-- K12 -/
theorem test_ldVxK_waits : gives (run 0xF50A State.reset) (fun t => t.pc == 0x200 && t.getV 5 == 0) = true := by decide +kernel
/-- K17 -/
theorem test_ldVxK_last_press : gives (run 0xF50A ((State.reset.setKey 2 true).setKey 9 true)) (fun t => t.getV 5 == 9 && t.pc == 0x202 && !t.keyPressedThisTick) = true := by decide +kernel
/-- K7 -/
theorem test_ldDTVx : gives (run 0xF215 (vm [(2, 5)])) (fun t => t.DT == 4) = true := by decide +kernel
/-- K10 -/
theorem test_ldSTVx_no_tone : gives (run 0xF218 (vm [(2, 1)])) (fun t => t.ST == 0 && !t.soundOn) = true := by decide +kernel

/-! ## The Tick and the host's actions -/

/-- X17 -/
theorem test_unknown_opcode : gives (run 0xFFFF { State.reset with DT := 2, ST := 1 }) (fun t => t.pc == 0x202 && t.DT == 1 && t.ST == 0 && t.outputs == [.logUnknownOpcode 0xFFFF]) = true := by decide +kernel
/-- C25 -/
theorem test_fetch_at_top : gives (run 0x1200 { State.reset with pc := 0xFFE }) (fun t => t.pc == 0x200) = true := by decide +kernel
/-- F2 -/
theorem test_fetch_out_of_range : faults (step { State.reset with pc := 0x1000 }) (.fetchOutOfRange 0x1000) = true := by decide +kernel
/-- D7 -/
theorem test_drw_cell_out_of_range : faults (run 0xD011 { poke (vm [(0, 60), (1, 31)]) [(0x300, 0x80)] with I := 0x300 }) (.framebufferOutOfRange 2048) = true := by decide +kernel
/-- D10 -/
theorem test_drw_row_out_of_memory : faults (run 0xD011 { poke (vm [(1, 0x20)]) [] with I := 0x1000 }) (.memoryOutOfRange 0x1000) = true := by decide +kernel
/-- F1: the record holds the state before the Tick. -/
theorem test_fault_keeps_state_before :
    (match tick 0x42 ({ State.reset with sp := 16, DT := 5, keyPressedThisTick := true }.withFetchWord 16 0x2300) with
      | .fault (.faulted k op t) => k == .stackOverflow && op == some 0x2300 && t.DT == 5 && t.keyPressedThisTick && t.rndSeed == 0
      | .fault (.raised _) => false
      | .next _ => false
      | .refused _ => false) = true := by decide +kernel
/-- K15 -/
theorem test_setKey_release_keeps_latch : gives (run 0xF50A ((State.reset.setKey 3 true).setKey 3 false)) (fun t => t.getV 5 == 3 && t.pc == 0x202) = true := by decide +kernel
/-- K18 -/
theorem test_setKey_out_of_range : (State.reset.setKey 16 true).keyPressedThisTick = false ∧ State.reset.setKey (-1) true = State.reset := ⟨rfl, rfl⟩
/-- R4 -/
theorem test_second_load_keeps_tail :
    let s := ((((State.reset.loadROM (some [0x11, 0x22, 0x33, 0x44])).2.hostReset).loadROM (some [0xAA, 0xBB])).2).hostReset
    s.readByte 0x201 = 0xBB ∧ s.readByte 0x202 = 0x33 ∧ s.readByte 0x204 = 0 := by decide +kernel
/-- R1 -/
theorem test_null_load_fails : State.reset.loadROM none = (false, State.reset) ∧ State.reset.loadROM (some []) = (false, State.reset) :=
  ⟨rfl, rfl⟩
/-- R5, R6 -/
theorem test_reset_keeps_timers : ({ State.reset with DT := 9 }.hostReset).DT = 9 := by decide +kernel
/-- R7, and E3: the font is restored. -/
theorem test_reset_memory :
    ((poke State.reset [(0x100, 0x5A), (0x050, 0x00)]).hostReset).readByte 0x100 = 0x5A ∧
    ((poke State.reset [(0x100, 0x5A), (0x050, 0x00)]).hostReset).readByte 0x050 = State.reset.config.fontSet[0] := by decide +kernel

/-! ## Witnesses: for every statement with hypotheses, states and operands that meet them, each clause at its bounds -/

theorem witness_DecodeOfEncodeIsIdentity : Instr.wf (.jpOff 0xFFF 0xF) = true := by decide
theorem witness_EncodeOfDecodeIsExaminedBits : decode 0x5121 = .instr (.seReg 1 2) := by decide
theorem witness_DecoderIsTheOpcodeMap :
    decode 0x1234 = .instr (.jp 0x234) ∧ (Instr.row (.jp 0)) ∈ opcodeTable ∧ (Instr.row (.jp 0)).selects 0x1234 = true ∧
    decode 0x8008 = .unknown 0x8008 ∧ ∀ r ∈ opcodeTable, r.selects 0x8008 = false := by decide +kernel
theorem witness_UnknownSpaceIsExact :
    decode 0x0000 = .unknown 0x0000 ∧ decode 0x800F = .unknown 0x800F ∧ decode 0xE09F = .unknown 0xE09F ∧
    decode 0xF000 = .unknown 0xF000 ∧ decode 0x00E0 ≠ .unknown 0x00E0 := by decide
/-- A Tick from the host's list at the highest pc, a free Tick, and an instruction that faults. -/
theorem witness_StepRunsDecodedInstruction :
    let s := { State.reset.withFetchWord 16 0x00EE with host := [.tick 5, .reset] };
    let s' := { s with host := [.reset] };
    (s.host = .tick 5 :: [.reset] ∧ s.pc.toNat ≤ 0xFFE ∧
      decodeBytes (s.readByte s.pc.toNat) (s.readByte (s.pc.toNat + 1)) = .instr .ret ∧
      exec .ret (s'.setSeed (BitVec.ofNat 8 5)) = .fault (.raised .stackUnderflow)) ∧
    (let u := { State.reset with pc := 0xFFE }.withFetchWord 16 0x1200;
      u.host = [] ∧ u.pc.toNat = 0xFFE ∧
      decodeBytes (u.readByte u.pc.toNat) (u.readByte (u.pc.toNat + 1)) = .instr (.jp 0x200) ∧
      ∃ t, exec (.jp 0x200) (({ u with freeIndex := u.freeIndex + 1 }).setSeed
        (BitVec.ofNat 8 (Config.freeCycleCounter u.freeIndex))) = .next t) :=
  ⟨⟨rfl, by decide, by decide +kernel, rfl⟩, rfl, by decide +kernel, by decide +kernel, _, rfl⟩
/-- With the timers zero and not zero after the execute step. -/
theorem witness_TickEndsWithAdvanceTimersLatch :
    (State.reset.withFetchWord 16 0x6001).fetch = .ok 0x6001 ∧
    ∃ t u, execDecoded (decode 0x6001) ((State.reset.withFetchWord 16 0x6001).setSeed (BitVec.ofNat 8 0)) = .next t ∧
      t.DT = 0 ∧ t.ST = 0 ∧ execDecoded (decode 0x6001)
        (({ State.reset with DT := 1, ST := 0xFF }.withFetchWord 16 0x6001).setSeed (BitVec.ofNat 8 0)) = .next u ∧
      u.DT ≠ 0 ∧ u.ST ≠ 0 :=
  ⟨by decide +kernel, _, _, rfl, rfl, rfl, rfl, by decide +kernel, by decide +kernel⟩
theorem witness_UnknownOpcodeIsNoOpAdvance :
    (State.reset.withFetchWord 16 0xFFFF).fetch = .ok 0xFFFF ∧ decode 0xFFFF = .unknown 0xFFFF := by decide +kernel
theorem witness_FetchIsBigEndianOrFaults :
    ({ State.reset with pc := 0xFFE } : State).pc.toNat ≤ 0xFFE ∧ 0xFFE < ({ State.reset with pc := 0xFFF } : State).pc.toNat := by
  decide
/-- One Tick for each fault of the list. -/
theorem witness_FaultsHaveListedCauses :
    faults (tick 0 { State.reset with pc := 0xFFF }) (.fetchOutOfRange 0xFFF) = true ∧
    faults (tick 0 ({ State.reset with I := 0xFFD }.withFetchWord 16 0xF033)) (.memoryOutOfRange 0x1000) = false ∧
    faults (tick 0 ({ State.reset with I := 0xFFE }.withFetchWord 16 0xF033)) (.memoryOutOfRange 0x1000) = true ∧
    faults (tick 0 ({ State.reset with I := 0xFFD }.withFetchWord 16 0xF355)) (.memoryOutOfRange 0x1000) = true ∧
    faults (tick 0 ({ State.reset with I := 0xFFD }.withFetchWord 16 0xF365)) (.memoryOutOfRange 0x1000) = true ∧
    faults (tick 0 ({ State.reset with I := 0xFFF }.withFetchWord 16 0xD012)) (.memoryOutOfRange 0x1000) = true ∧
    faults (tick 0 ((vm [(0, 57), (1, 31)]).withFetchWord 16 0xD011)) (.framebufferOutOfRange 2048) = true ∧
    faults (tick 0 ({ State.reset with sp := 16 }.withFetchWord 16 0x2300)) .stackOverflow = true ∧
    faults (tick 0 (State.reset.withFetchWord 16 0x00EE)) .stackUnderflow = true := by decide +kernel
theorem witness_PcAfterTickFollowsTable :
    (State.reset.withFetchWord 16 0xB210).fetch = .ok 0xB210 ∧ decode 0xB210 = .instr (.jpOff 0x210 2) ∧
    ∃ t, tick 0 (State.reset.withFetchWord 16 0xB210) = .next t :=
  ⟨by decide +kernel, by decide, next_of_gives (p := fun _ => true) (by decide +kernel)⟩
theorem witness_StepKeepsInvariant : State.reset.Inv ∧ ∃ t, step State.reset = .next t :=
  ⟨⟨by decide, by decide, fbBinary_clear State.reset⟩, next_of_gives (p := fun _ => true) (by decide +kernel)⟩
theorem witness_TickLeavesHostOwnedState : ∃ t, tick 0 State.reset = .next t :=
  next_of_gives (p := fun _ => true) (by decide +kernel)
theorem witness_SeedBeforeTickIsUnobservable : ∃ t, tick 0x1234 (State.reset.withFetchWord 16 0xC30F) = .next t :=
  next_of_gives (p := fun _ => true) (by decide +kernel)
theorem witness_LastKeyIsUnobservableWithoutPress :
    State.reset.keyPressedThisTick = false ∧ ∃ t, tick 0 (State.reset.withFetchWord 16 0xF50A) = .next t :=
  ⟨rfl, next_of_gives (p := fun _ => true) (by decide +kernel)⟩
theorem witness_WriteThenRead : (0xFFF : Nat) ≤ 0xFFF ∧ (0x000 : Nat) ≠ 0xFFF ∧ (0xFFF : Nat) < 0x1000 := by decide
theorem witness_HangsRunForEver :
    ((State.reset.withFetchWord 16 0x1200).fetch = .ok 0x1200 ∧ decode 0x1200 = .instr (.jp 0x200) ∧
      (State.reset.withFetchWord 16 0x1200).pc = (0x200 : Addr).setWidth 16) ∧
    ((State.reset.withFetchWord 16 0xF50A).fetch = .ok 0xF50A ∧ decode 0xF50A = .instr (.ldVxK 5) ∧
      (State.reset.withFetchWord 16 0xF50A).keyPressedThisTick = false) := by decide +kernel
theorem witness_ClsClearsEveryPixel : 0x0FE0#16 &&& 0xF0FF = 0x00E0 := by decide
/-- No row; the last pixel of the framebuffer; the last byte of memory; x = F. -/
theorem witness_DrwXorsSprite :
    0xDF1F#16 &&& 0xF000 = 0xD000 ∧ (∀ row, row < (0 : Fin 16).val → State.reset.rowFits 0xFF 0xFF row) ∧
    (∀ row, row < (1 : Fin 16).val → ({ vm [(0, 56), (1, 31)] with I := 0xFFF } : State).rowFits
      ((vm [(0, 56), (1, 31)]).getV 0) ((vm [(0, 56), (1, 31)]).getV 1) row) ∧
    (∀ row, row < (15 : Fin 16).val → (vm [(0xF, 5)]).rowFits ((vm [(0xF, 5)]).getV 0xF) ((vm [(0xF, 5)]).getV 1) row) := by
  decide +kernel
/-- The second row out of memory; the cell after the last pixel; its first cell already past it. -/
theorem witness_DrwFaultsAtFirstBadCell :
    (let s := { State.reset with I := 0xFFF };
      1 < (2 : Fin 16).val ∧ (∀ r, r < 1 → s.rowFits (s.getV 0) (s.getV 1) r) ∧ 0xFFF < s.effAddr 1) ∧
    (let s := vm [(0, 57), (1, 31)];
      0 < (1 : Fin 16).val ∧ (∀ r, r < 0 → s.rowFits (s.getV 0) (s.getV 1) r) ∧ s.effAddr 0 ≤ 0xFFF ∧
      (∀ c, c < 7 → pixelIndex (s.getV 0) (s.getV 1) 0 c < 2048) ∧ 2047 < pixelIndex (s.getV 0) (s.getV 1) 0 7) ∧
    (let s := vm [(1, 32)];
      s.effAddr 0 ≤ 0xFFF ∧ 2047 < pixelIndex (s.getV 0) (s.getV 1) 0 0) := by decide +kernel
theorem witness_DrwTwiceRestores :
    (0 : Reg) ≠ VF ∧ (1 : Reg) ≠ VF ∧
    ∀ row, row < (1 : Fin 16).val → (vm [(0, 56), (1, 31)]).rowFits ((vm [(0, 56), (1, 31)]).getV 0)
      ((vm [(0, 56), (1, 31)]).getV 1) row := by decide +kernel
theorem witness_RetPopsOrUnderflows :
    0x0FEE#16 &&& 0xF0FF = 0x00EE ∧ 0 < ({ State.reset with sp := 1 } : State).sp.val ∧
    0 < ({ State.reset with sp := 16 } : State).sp.val ∧ State.reset.sp.val = 0 := by decide
theorem witness_JpJumpsToAddress : 0x1FFF#16 &&& 0xF000 = 0x1000 := by decide
theorem witness_CallPushesOwnAddressOrOverflows :
    0x2FFF#16 &&& 0xF000 = 0x2000 ∧ State.reset.sp.val < 16 ∧ ({ State.reset with sp := 15 } : State).sp.val < 16 ∧
    (1 : Fin 16).val ≠ State.reset.sp.val ∧ ({ State.reset with sp := 16 } : State).sp.val = 16 := by decide
theorem witness_SkipsCompareOperands :
    0x3312#16 &&& 0xF000 = 0x3000 ∧ 0x4312#16 &&& 0xF000 = 0x4000 ∧ 0x5121#16 &&& 0xF000 = 0x5000 ∧
    0x912F#16 &&& 0xF000 = 0x9000 := by decide
theorem witness_BnnnAddsSelectedRegister :
    0xBFFF#16 &&& 0xF000 = 0xB000 ∧ State.reset.jumpAddsVX = false ∧
    ({ State.reset with jumpAddsVX := true } : State).jumpAddsVX = true := by decide
theorem witness_LdImmLoadsImmediate : 0x6F01#16 &&& 0xF000 = 0x6000 := by decide
theorem witness_AddImmWrapsWithoutFlag : 0x7FFF#16 &&& 0xF000 = 0x7000 := by decide
theorem witness_LdRegCopies : 0x8110#16 &&& 0xF00F = 0x8000 ∧ (1 : Reg) = 1 := by decide
theorem witness_LogicLeavesFlag :
    0x8F11#16 &&& 0xF00F = 0x8001 ∧ 0x8122#16 &&& 0xF00F = 0x8002 ∧ 0x8113#16 &&& 0xF00F = 0x8003 := by decide
theorem witness_AddRegSetsCarry : 0x8F14#16 &&& 0xF00F = 0x8004 ∧ (14 : Reg) ≠ VF := by decide
theorem witness_SubSetsStrictFlag : 0x8F15#16 &&& 0xF00F = 0x8005 ∧ (14 : Reg) ≠ VF := by decide
theorem witness_SubnSetsFlag : 0x8F17#16 &&& 0xF00F = 0x8007 ∧ (14 : Reg) ≠ VF := by decide
theorem witness_ShiftsSetShiftedOutBit :
    0x8126#16 &&& 0xF00F = 0x8006 ∧ 0x812E#16 &&& 0xF00F = 0x800E ∧ (14 : Reg) ≠ VF ∧
    0x80 = (if ({ vm [(2, 0x80)] with shiftUsesVY := true } : State).shiftUsesVY then (vm [(2, 0x80)]).getV 2
      else (vm [(2, 0x80)]).getV 1).toNat := by decide
theorem witness_RndMasksCycleCounter :
    0xC30F#16 &&& 0xF000 = 0xC000 ∧ (State.reset.withFetchWord 16 0xC30F).fetch = .ok 0xC30F ∧
    decode 0xC30F = .instr (.rnd 3 0x0F) := by decide +kernel
theorem witness_LdISetsIndex : 0xAFFF#16 &&& 0xF000 = 0xA000 := by decide
theorem witness_AddIWrapsUnmasked : 0xFF1E#16 &&& 0xF0FF = 0xF01E := by decide
theorem witness_LdFPointsAtGlyph :
    0xFF29#16 &&& 0xF0FF = 0xF029 ∧ ((vm [(2, 15)]).getV 2).toNat ≤ 15 ∧ 15 < ((vm [(2, 16)]).getV 2).toNat := by decide
theorem witness_LdBStoresDigits :
    0xFF33#16 &&& 0xF0FF = 0xF033 ∧ ({ State.reset with I := 0xFFD } : State).effAddr 2 ≤ 0xFFF ∧
    (let s := { State.reset with I := 0xFFE };
      0xFFF < s.effAddr 2 ∧ ∀ j, j < 2 → s.effAddr j ≤ 0xFFF) ∧
    (let s := { State.reset with I := 0x1000 };
      0xFFF < s.effAddr 0 ∧ ∀ j, j < 0 → s.effAddr j ≤ 0xFFF) := by decide
theorem witness_StoreRegsWritesBlock :
    0xFF55#16 &&& 0xF0FF = 0xF055 ∧ ({ State.reset with I := 0xFF0 } : State).effAddr (15 : Reg).val ≤ 0xFFF ∧
    State.reset.loadStoreIncrementsI = false ∧
    ({ State.reset with loadStoreIncrementsI := true } : State).loadStoreIncrementsI = true ∧
    (let s := { State.reset with I := 0xFF1 };
      15 ≤ (15 : Reg).val ∧ 0xFFF < s.effAddr 15 ∧ ∀ j, j < 15 → s.effAddr j ≤ 0xFFF) := by decide
theorem witness_LoadRegsReadsBlock :
    0xFF65#16 &&& 0xF0FF = 0xF065 ∧ ({ State.reset with I := 0xFFF } : State).effAddr (0 : Reg).val ≤ 0xFFF ∧
    (0 : Reg).val < (1 : Reg).val ∧ State.reset.loadStoreIncrementsI = false ∧
    ({ State.reset with loadStoreIncrementsI := true } : State).loadStoreIncrementsI = true ∧
    (let s := { State.reset with I := 0x1000 };
      0 ≤ (0 : Reg).val ∧ 0xFFF < s.effAddr 0 ∧ ∀ j, j < 0 → s.effAddr j ≤ 0xFFF) := by decide
theorem witness_KeySkipsReadKeyState :
    0xEF9E#16 &&& 0xF0FF = 0xE09E ∧ 0xEFA1#16 &&& 0xF0FF = 0xE0A1 ∧
    ((vm [(1, 15)]).getV 1).toNat = (15 : Fin 16).val ∧ 16 ≤ ((vm [(1, 16)]).getV 1).toNat := by decide
theorem witness_LdVxDTReadsDelayTimer :
    0xFF07#16 &&& 0xF0FF = 0xF007 ∧ (State.reset.withFetchWord 16 0xF307).fetch = .ok 0xF307 ∧
    decode 0xF307 = .instr (.ldVxDT 3) := by decide +kernel
theorem witness_LdVxKWaitsForPress :
    0xFF0A#16 &&& 0xF0FF = 0xF00A ∧ (State.reset.setKey 15 true).keyPressedThisTick = true ∧
    State.reset.keyPressedThisTick = false := by decide
theorem witness_TimerLoadsAreDecrementedOnce :
    0xFF15#16 &&& 0xF0FF = 0xF015 ∧ 0xFF18#16 &&& 0xF0FF = 0xF018 ∧
    (State.reset.withFetchWord 16 0xF215).fetch = .ok 0xF215 ∧ decode 0xF215 = .instr (.ldDTVx 2) ∧
    (State.reset.withFetchWord 16 0xF218).fetch = .ok 0xF218 ∧ decode 0xF218 = .instr (.ldSTVx 2) := by decide +kernel
theorem witness_SetKeyRecordsPressTransition :
    ((-1 : Int) < 0) ∧ ((15 : Int) < 16) ∧ (15 : Int) = ((15 : Fin 16).val : Int) ∧ State.reset.key[(15 : Fin 16).val] = false ∧
    (State.reset.setKey 15 true).key[(15 : Fin 16).val] = true := by decide
theorem witness_StepTakesNextHostAction :
    ({ State.reset with host := [.setKey 3 true, .tick 0] } : State).host = .setKey 3 true :: [.tick 0] := by decide
theorem witness_ResetActionValues :
    0x04F < 0x050 ∧ 0x0A0 ≤ 0x1FF ∧ 0x1FF < 0x200 ∧ 0x200 ≤ 0x200 ∧ 0xFFF ≤ 0xFFF ∧
    ({ State.reset with config := { State.reset.config with resetClearsTimers := true } } : State).config.resetClearsTimers = true ∧
    ({ State.reset with config := { State.reset.config with resetClearsTimers := false } } : State).config.resetClearsTimers = false := by
  decide
theorem witness_InitialStateIsReset : 0x200 ≤ 0xFFF := by decide
theorem witness_LoadRomCopiesImageAlone :
    ([0xAA] : List Byte).length ≠ 0 ∧ (List.replicate 3584 (0x11 : Byte)).length ≤ 3584 ∧
    (List.replicate 3584 (0x11 : Byte)).length ≠ 0 := by decide +kernel
theorem witness_FailedLoadChangesNothing :
    (none : Option (List Byte)) = none ∧ ([] : List Byte).length = 0 ∧ 3584 < (List.replicate 3585 (0 : Byte)).length := by
  decide +kernel
theorem witness_LoadFromFileAlwaysResets :
    ([0xAA] : List Byte).length ≠ 0 ∧ (List.replicate 3584 (0 : Byte)).length ≤ 3584 ∧ ([] : List Byte).length = 0 ∧
    3584 < (List.replicate 3585 (0 : Byte)).length := by decide +kernel
/-- Two loaded bytes; from there a run of a key press, a Reset and a Tick, none of them a load; the longest image. -/
theorem witness_LoadedBytesSurviveEveryReset :
    let bytes : List Byte := [0x12, 0x00];
    let s := { (State.reset.loadROM (some bytes)).2 with host := [.setKey 3 true, .reset, .tick 0] };
    bytes.length ≠ 0 ∧ bytes.length ≤ 3584 ∧ s.romHolds bytes ∧ s.loadsNext = false ∧
    (∃ t, step s = .next t) ∧ (∃ t, ReachesWithoutLoad s t ∧ t ≠ s) ∧
    (List.replicate 3584 (0x11 : Byte)).length ≤ 3584 := by
  intro bytes s
  let s1 : State := { s with host := [.reset, .tick 0] }.setKey 3 true
  let s2 : State := { s1 with host := [.tick 0] }.hostReset
  obtain ⟨t, ht, hp⟩ := next_satisfies_of_gives (r := step s2) (p := fun t => t.host == []) (by decide +kernel)
  refine ⟨by decide, by decide, by decide +kernel, rfl, ⟨s1, rfl⟩, ⟨t, .step rfl (t := s1) rfl (.step rfl (t := s2) rfl
    (.step rfl ht (.refl t))), ?_⟩, by decide +kernel⟩
  rintro rfl
  exact absurd hp (by decide)
theorem witness_EmptyMachineRunsOffMemory : State.reset.romCopy = [] ∧ (List.replicate 1792 (0 : Nat)).length = 1792 := by
  decide +kernel

end Sys2Proof.Tests
end

/-! ## The end of a Tick (30_encoding.md R84, R85; 60_exceptions.md R270-R272) -/

namespace Sys2Proof.Machine

@[simp] theorem timerStep_zero : timerStep 0 = 0 := rfl

theorem timerStep_of_ne_zero {v : Byte} (h : v ≠ 0) : timerStep v = v - 1 := if_neg h

/-- The one equation of a Tick that fetches: the execute step from the seeded state, then its ending. -/
theorem tick_of_fetch {s : State} {op : Word} (hf : s.fetch = .ok op) (cycleCounter : Nat) :
    tick cycleCounter s = finishTick op s (execDecoded (decode op) (s.setSeed (seedOf cycleCounter))) := by
  simp only [tick, State.fetch_setSeed, hf]

/-- Whatever the execute step was, an instruction's or an unknown opcode's, if it completes then the Tick does. -/
theorem tick_of_execDecoded_next {s t : State} {op : Word} {cycleCounter : Nat} (hf : s.fetch = .ok op)
    (ht : execDecoded (decode op) (s.setSeed (seedOf cycleCounter)) = .next t) :
    tick cycleCounter s = .next t.endTick := by
  rw [tick_of_fetch hf, ht, finishTick]

/-- The steps that end a Tick write pc, the two timers and the latch alone. -/
theorem State.endTick_frame (t : State) :
    t.endTick = { t with pc := t.endTick.pc, DT := t.endTick.DT, ST := t.endTick.ST,
                         keyPressedThisTick := t.endTick.keyPressedThisTick } := rfl

/-- Settles O7: the Tick's next state is the end steps applied to what the execute step left, read field by field. -/
theorem tickEndsWithAdvanceTimersLatch : Obligations.TickEndsWithAdvanceTimersLatch := by
  intro cycleCounter s t op hf ht
  refine ⟨t.endTick, tick_of_execDecoded_next hf ht, t.endTick_pc, ?_, ?_, ?_, ?_,
    t.endTick_keyPressedThisTick, t.endTick_lastKey, t.endTick_frame⟩
  · intro hDT; rw [State.endTick_DT, timerStep_of_ne_zero hDT]
  · intro hDT; rw [State.endTick_DT, hDT, timerStep_zero]
  · intro hST; rw [State.endTick_ST, timerStep_of_ne_zero hST]
  · intro hST; rw [State.endTick_ST, hST, timerStep_zero]

end Sys2Proof.Machine

/-! ## Control flow (41_control_flow.md) -/

namespace Sys2Proof.Machine

/-- A jump lands on its target once the Tick's shared advance is added, the wrap below 0 included (R122). -/
theorem State.jumpTo_pc_add_two (s : State) (target : Word) : (s.jumpTo target).pc + 2 = target :=
  BitVec.sub_add_cancel target 2

/-- The dispatch on n0 = 1 examines no other bit (30_encoding.md R75, R80). -/
theorem selects_jp : Selects 0x1000 0xF000 (fun op => .jp (fieldNNN op)) := by
  intro op h
  have hn0 : majorNibble op = 1#4 := majorNibble_of_maskF000 h
  simp only [decode, hn0]

theorem exec_jp (nnn : Addr) (s : State) : exec (.jp nnn) s = .next (s.jumpTo (nnn.setWidth 16)) := rfl

/-- Settles O25: the next state is the jump to nnn, whose one write is pc. -/
theorem jpJumpsToAddress : Obligations.JpJumpsToAddress := by
  refine ⟨selects_jp, fun s nnn => ⟨s.jumpTo (nnn.setWidth 16), exec_jp nnn s, rfl, ?_, rfl, fun _ => rfl⟩⟩
  rw [State.jumpTo_pc_add_two]
  exact BitVec.toNat_setWidth_of_le (by decide)

end Sys2Proof.Machine

/-! ## Register arithmetic and logic (42_alu.md)

Each of these instructions ends in one write of V[x], or in that write followed by the flag's. The two shared operations
`setV` and `setResultThenFlag` get their frame once; an instruction's proof then adds its decoding and its value. -/

namespace Sys2Proof.Machine

theorem State.setV_sameRegsExcept (s : State) (x : Reg) (v : Byte) : SameRegsExcept s (s.setV x v) [x] :=
  fun _ hr => s.getV_setV_other v fun hx => hr (List.mem_singleton.mpr hx)

theorem State.setV_frame (s : State) (x : Reg) (v : Byte) : s.setV x v = { s with V := (s.setV x v).V } := rfl

theorem State.setV_sameMemory (s : State) (x : Reg) (v : Byte) : SameMemory s (s.setV x v) := s.setV_readByte x v

/-- Writing a register's own value back changes nothing. -/
theorem State.setV_getV_self (s : State) (x : Reg) : s.setV x (s.getV x) = s := by
  have hV : (s.setV x (s.getV x)).V = s.V := (s.V_eq_iff _).mpr fun r => by
    rw [s.getV_setV]
    split
    case isTrue hr => rw [hr]
    case isFalse => rfl
  rw [s.setV_frame, hV]

theorem State.getV_setResultThenFlag_of_ne (s : State) {x : Reg} (result flag : Byte) (hx : x ≠ VF) :
    (s.setResultThenFlag x result flag).getV x = result := by
  rw [State.setResultThenFlag, State.setFlag_eq, State.getV_setV_other _ _ hx, State.getV_setV_same]

/-- The flag is written last, so it stands even when x is VF itself (R150). -/
theorem State.getV_setResultThenFlag_VF (s : State) (x : Reg) (result flag : Byte) :
    (s.setResultThenFlag x result flag).getV VF = flag :=
  (s.setV x result).getV_setV_same VF flag

theorem State.setResultThenFlag_sameRegsExcept (s : State) (x : Reg) (result flag : Byte) :
    SameRegsExcept s (s.setResultThenFlag x result flag) [x, VF] := by
  intro r hr
  obtain ⟨hx, hVF⟩ : r ≠ x ∧ r ≠ VF := by simpa using hr
  rw [State.setResultThenFlag, State.setFlag_eq, State.getV_setV_other _ _ hVF, State.getV_setV_other _ _ hx]

theorem State.setResultThenFlag_frame (s : State) (x : Reg) (result flag : Byte) :
    s.setResultThenFlag x result flag = { s with V := (s.setResultThenFlag x result flag).V } := rfl

theorem State.setResultThenFlag_sameMemory (s : State) (x : Reg) (result flag : Byte) :
    SameMemory s (s.setResultThenFlag x result flag) := fun _ => rfl

/-! ### Decoding -/

/-- A row of a major opcode with no secondary switch is picked by n0 alone (30_encoding.md R75, R80). -/
theorem selects_of_majorNibble {n : BitVec 4} {f : Word → Instr}
    (hf : ∀ op : Word, majorNibble op = n → decode op = .instr (f op)) : Selects (wordXYN n 0 0 0) 0xF000 f :=
  fun op h => hf op (majorNibble_of_maskF000 h)

/-- The rows of n0 = 8 are told apart by n3 alone (30_encoding.md R77). -/
theorem selects_of_decode8 {k : BitVec 4} {f : Word → Instr}
    (hf : ∀ op : Word, op.extractLsb' 0 4 = k → decode8 op = .instr (f op)) : Selects (wordXYN 8#4 0 0 k) 0xF00F f := by
  intro op h
  obtain ⟨hn0, hn3⟩ := fields_of_maskF00F h
  simp only [decode, hn0, hf op hn3]

theorem selects_ldImm : Selects 0x6000 0xF000 (fun op => .ldImm (fieldX op) (fieldNN op)) :=
  selects_of_majorNibble (n := 0x6#4) fun op hn0 => by simp only [decode, hn0]

theorem selects_addImm : Selects 0x7000 0xF000 (fun op => .addImm (fieldX op) (fieldNN op)) :=
  selects_of_majorNibble (n := 0x7#4) fun op hn0 => by simp only [decode, hn0]

theorem selects_rnd : Selects 0xC000 0xF000 (fun op => .rnd (fieldX op) (fieldNN op)) :=
  selects_of_majorNibble (n := 0xC#4) fun op hn0 => by simp only [decode, hn0]

theorem selects_ldReg : Selects 0x8000 0xF00F (fun op => .ldReg (fieldX op) (fieldY op)) :=
  selects_of_decode8 (k := 0x0#4) fun op hn3 => by simp only [decode8, hn3]

theorem selects_sub : Selects 0x8005 0xF00F (fun op => .sub (fieldX op) (fieldY op)) :=
  selects_of_decode8 (k := 0x5#4) fun op hn3 => by simp only [decode8, hn3]

theorem selects_subn : Selects 0x8007 0xF00F (fun op => .subn (fieldX op) (fieldY op)) :=
  selects_of_decode8 (k := 0x7#4) fun op hn3 => by simp only [decode8, hn3]

/-! ### The execute steps -/

theorem exec_ldImm (x : Reg) (nn : Byte) (s : State) : exec (.ldImm x nn) s = .next (s.setV x nn) := rfl

theorem exec_addImm (x : Reg) (nn : Byte) (s : State) : exec (.addImm x nn) s = .next (s.setV x (s.getV x + nn)) := rfl

theorem exec_ldReg (x y : Reg) (s : State) : exec (.ldReg x y) s = .next (s.setV x (s.getV y)) := rfl

theorem exec_sub (x y : Reg) (s : State) : exec (.sub x y) s =
    .next (s.setResultThenFlag x (s.getV x - s.getV y) (subFlag (s.getV x) (s.getV y))) := rfl

theorem exec_subn (x y : Reg) (s : State) : exec (.subn x y) s =
    .next (s.setResultThenFlag x (s.getV y - s.getV x) (subnFlag (s.getV x) (s.getV y))) := rfl

theorem exec_rnd (x : Reg) (nn : Byte) (s : State) : exec (.rnd x nn) s = .next (s.setV x (s.rndSeed &&& nn)) := rfl

/-! ### The values written -/

/-- The wrapped difference of two bytes is the integer difference modulo 256. -/
theorem byte_sub_toNat (a b : Byte) : ((a - b).toNat : Int) = (a.toNat - b.toNat : Int) % 256 := by
  rw [BitVec.toNat_sub]
  omega

theorem subFlag_eq_ite (a b : Byte) : subFlag a b = if a.toNat > b.toNat then 1 else 0 := by
  simp only [subFlag, flagByte, decide_eq_true_eq, gt_iff_lt]

/-- 8XY7's flag, defined by the borrow, is 1 from equality on (R160). -/
theorem subnFlag_eq_ite (a b : Byte) : subnFlag a b = if b.toNat ≥ a.toNat then 1 else 0 := by
  simp only [subnFlag, ← not_lt, ite_not]

theorem seedOf_toNat (cycleCounter : Nat) : (seedOf cycleCounter).toNat = cycleCounter % 256 :=
  BitVec.toNat_ofNat cycleCounter 8

/-! ### The obligations -/

/-- Settles O29: the next state is the one write of nn to V[x]. -/
theorem ldImmLoadsImmediate : Obligations.LdImmLoadsImmediate :=
  ⟨selects_ldImm, fun s x nn => ⟨s.setV x nn, exec_ldImm x nn s, s.getV_setV_same x nn, s.setV_sameRegsExcept x nn,
    s.setV_frame x nn, s.setV_sameMemory x nn⟩⟩

/-- Settles O30: the next state is the one write of the byte sum to V[x], and VF is a register like any other. -/
theorem addImmWrapsWithoutFlag : Obligations.AddImmWrapsWithoutFlag := by
  refine ⟨selects_addImm, fun s x nn => ⟨s.setV x (s.getV x + nn), exec_addImm x nn s, ?_, s.setV_sameRegsExcept x _,
    s.setV_frame x _, s.setV_sameMemory x _⟩⟩
  rw [State.getV_setV_same, BitVec.toNat_add]

/-- Settles O31: the next state is the one write of V[y] to V[x], which is V[x] itself when x = y. -/
theorem ldRegCopies : Obligations.LdRegCopies := by
  refine ⟨selects_ldReg, fun s x y => ⟨s.setV x (s.getV y), exec_ldReg x y s, s.getV_setV_same x _,
    s.setV_sameRegsExcept x _, s.setV_frame x _, s.setV_sameMemory x _, ?_⟩⟩
  rintro rfl
  exact s.setV_getV_self x

/-- Settles O34: the difference, then the strict comparison of the original operands as the flag. -/
theorem subSetsStrictFlag : Obligations.SubSetsStrictFlag := by
  refine ⟨selects_sub, fun s x y => ⟨_, exec_sub x y s, fun hx => ?_, ?_, s.setResultThenFlag_sameRegsExcept x _ _,
    s.setResultThenFlag_frame x _ _, s.setResultThenFlag_sameMemory x _ _⟩⟩
  · rw [s.getV_setResultThenFlag_of_ne _ _ hx, byte_sub_toNat]
  · rw [s.getV_setResultThenFlag_VF, subFlag_eq_ite]

/-- Settles O35: the difference the other way, then the flag, which is set from equality on. -/
theorem subnSetsFlag : Obligations.SubnSetsFlag := by
  refine ⟨selects_subn, fun s x y => ⟨_, exec_subn x y s, fun hx => ?_, ?_, s.setResultThenFlag_sameRegsExcept x _ _,
    s.setResultThenFlag_frame x _ _, s.setResultThenFlag_sameMemory x _ _⟩⟩
  · rw [s.getV_setResultThenFlag_of_ne _ _ hx, byte_sub_toNat]
  · rw [s.getV_setResultThenFlag_VF, subnFlag_eq_ite]

/-- In a Tick the seed that CXNN masks is the one the Tick stored before its fetch (R162). -/
theorem tick_of_decode_rnd {s : State} {op : Word} {x : Reg} {nn : Byte} (cycleCounter : Nat) (hf : s.fetch = .ok op)
    (hd : decode op = .instr (.rnd x nn)) :
    tick cycleCounter s = .next ((s.setSeed (seedOf cycleCounter)).setV x (seedOf cycleCounter &&& nn)).endTick :=
  tick_of_execDecoded_next hf (by rw [hd, execDecoded, exec_rnd, State.setSeed_rndSeed])

/-- Settles O37: one write of the masked seed to V[x], and in a Tick the seed is the one just stored. -/
theorem rndMasksCycleCounter : Obligations.RndMasksCycleCounter := by
  refine ⟨selects_rnd, fun s x nn => ⟨s.setV x (s.rndSeed &&& nn), exec_rnd x nn s, s.getV_setV_same x _,
    s.setV_sameRegsExcept x _, s.setV_frame x _, s.setV_sameMemory x _⟩, ?_⟩
  intro s op x nn cycleCounter hf hd
  refine ⟨_, tick_of_decode_rnd cycleCounter hf hd, ?_⟩
  rw [State.endTick_getV, State.getV_setV_same, BitVec.toNat_and, seedOf_toNat]

end Sys2Proof.Machine

/-! ## Index register and memory (43_index_memory.md)

ANNN and FX29 each end in one write of I, whose frame is proved once. -/

namespace Sys2Proof.Machine

theorem State.setI_frame (s : State) (v : Word) : s.setI v = { s with I := (s.setI v).I } := rfl

theorem State.setI_sameMemory (s : State) (v : Word) : SameMemory s (s.setI v) := s.setI_readByte v

/-! ### Decoding -/

theorem decode_of_majorNibble_F {op : Word} (hn0 : majorNibble op = 0xF#4) : decode op = decodeF op := by
  rw [decode, hn0]
  rfl

/-- The rows of n0 = F are told apart by NN alone (30_encoding.md R79). -/
theorem selects_of_decodeF {nn : Byte} {f : Word → Instr}
    (hf : ∀ op : Word, fieldNN op = nn → decodeF op = .instr (f op)) : Selects (wordXNN 0xF#4 0 nn) 0xF0FF f := by
  intro op h
  obtain ⟨hn0, hnn⟩ := fields_of_maskF0FF h
  rw [decode_of_majorNibble_F hn0, hf op hnn]

theorem selects_ldI : Selects 0xA000 0xF000 (fun op => .ldI (fieldNNN op)) :=
  selects_of_majorNibble (n := 0xA#4) fun op hn0 => by simp only [decode, hn0]

theorem selects_ldF : Selects 0xF029 0xF0FF (fun op => .ldF (fieldX op)) :=
  selects_of_decodeF (nn := 0x29#8) fun op hnn => by simp only [decodeF, hnn]

/-! ### The execute steps -/

theorem exec_ldI (nnn : Addr) (s : State) : exec (.ldI nnn) s = .next (s.setI (nnn.setWidth 16)) := rfl

theorem exec_ldF (x : Reg) (s : State) :
    exec (.ldF x) s = .next (s.setI ((glyphAddress (s.getV x)).getD s.I)) := rfl

/-! ### The values written -/

/-- A 12-bit address keeps its value when it is zero-extended to the 16 bits of I or pc. -/
theorem addr_setWidth_toNat (nnn : Addr) : (nnn.setWidth 16).toNat = nnn.toNat :=
  BitVec.toNat_setWidth_of_le (by decide)

theorem addr_toNat_le (nnn : Addr) : nnn.toNat ≤ 0xFFF := Nat.le_of_lt_succ nnn.isLt

theorem glyphAddress_of_le {digit : Byte} (h : digit.toNat ≤ 15) :
    glyphAddress digit = some (BitVec.ofNat 16 (0x050 + 5 * digit.toNat)) := if_pos h

theorem glyphAddress_of_lt {digit : Byte} (h : 15 < digit.toNat) : glyphAddress digit = none :=
  if_neg (Nat.not_le_of_lt h)

/-- The last glyph begins at 0x09B, so no glyph's address wraps in I. -/
theorem glyphOffset_toNat {d : Nat} (h : d ≤ 15) : (BitVec.ofNat 16 (0x050 + 5 * d)).toNat = 0x050 + 5 * d := by
  rw [BitVec.toNat_ofNat]
  omega

/-! ### The obligations -/

/-- Settles O38: the next state is the one write of the zero-extended nnn to I. -/
theorem ldISetsIndex : Obligations.LdISetsIndex := by
  refine ⟨selects_ldI, fun s nnn => ⟨s.setI (nnn.setWidth 16), exec_ldI nnn s, ?_, ?_, s.setI_frame _,
    s.setI_sameMemory _⟩⟩
  · rw [State.setI_I, addr_setWidth_toNat]
  · rw [State.setI_I, addr_setWidth_toNat]
    exact addr_toNat_le nnn

/-- Settles O40: the next state is one write of I, of the glyph's address when the digit has one and of I's own value
when it has none. -/
theorem ldFPointsAtGlyph : Obligations.LdFPointsAtGlyph := by
  refine ⟨selects_ldF, fun s x => ⟨s.setI ((glyphAddress (s.getV x)).getD s.I), exec_ldF x s, fun hdigit => ?_,
    fun hlarge => ?_, s.setI_frame _, s.setI_sameMemory _⟩⟩
  · rw [State.setI_I, glyphAddress_of_le hdigit, Option.getD_some, glyphOffset_toNat hdigit]
  · rw [State.setI_I, glyphAddress_of_lt hlarge, Option.getD_none]

end Sys2Proof.Machine

/-! ## Keys and timers (44_keys_timers.md)

EX9E and EXA1 are one conditional skip, on the state of the key that V[x] names; FX07 is one write of V[x]. -/

namespace Sys2Proof.Machine

theorem State.keyState_of_toNat_eq (s : State) {v : Byte} {k : Fin 16} (h : v.toNat = k.val) :
    s.keyState v = some s.key[k.val] := by
  rw [State.keyState, h]
  exact Vector.getElem?_eq_getElem k.isLt

theorem State.keyState_of_ge (s : State) {v : Byte} (h : 16 ≤ v.toNat) : s.keyState v = none :=
  Vector.getElem?_eq_none h

/-! ### Decoding -/

theorem decode_of_majorNibble_E {op : Word} (hn0 : majorNibble op = 0xE#4) : decode op = decodeE op := by
  rw [decode, hn0]
  rfl

/-- The rows of n0 = E are told apart by NN alone (30_encoding.md R78). -/
theorem selects_of_decodeE {nn : Byte} {f : Word → Instr}
    (hf : ∀ op : Word, fieldNN op = nn → decodeE op = .instr (f op)) : Selects (wordXNN 0xE#4 0 nn) 0xF0FF f := by
  intro op h
  obtain ⟨hn0, hnn⟩ := fields_of_maskF0FF h
  rw [decode_of_majorNibble_E hn0, hf op hnn]

theorem selects_skp : Selects 0xE09E 0xF0FF (fun op => .skp (fieldX op)) :=
  selects_of_decodeE (nn := 0x9E#8) fun op hnn => by simp only [decodeE, hnn]

theorem selects_sknp : Selects 0xE0A1 0xF0FF (fun op => .sknp (fieldX op)) :=
  selects_of_decodeE (nn := 0xA1#8) fun op hnn => by simp only [decodeE, hnn]

theorem selects_ldVxDT : Selects 0xF007 0xF0FF (fun op => .ldVxDT (fieldX op)) :=
  selects_of_decodeF (nn := 0x07#8) fun op hnn => by simp only [decodeF, hnn]

/-! ### The execute steps -/

theorem exec_skp (x : Reg) (s : State) :
    exec (.skp x) s = .next (s.skipIf (s.keyState (s.getV x) == some true)) := rfl

theorem exec_sknp (x : Reg) (s : State) :
    exec (.sknp x) s = .next (s.skipIf (s.keyState (s.getV x) == some false)) := rfl

theorem exec_ldVxDT (x : Reg) (s : State) : exec (.ldVxDT x) s = .next (s.setV x s.DT) := rfl

theorem State.skipIf_false (s : State) : s.skipIf false = s := rfl

/-- A skip on a key that V[x] names compares that key's state with the polarity the skip wants (R221, R222). -/
theorem State.skipIf_keyState_of_toNat_eq (s : State) {v : Byte} {k : Fin 16} (wanted : Bool) (h : v.toNat = k.val) :
    s.skipIf (s.keyState v == some wanted) = { s with pc := if s.key[k.val] = wanted then s.pc + 2 else s.pc } := by
  rw [s.keyState_of_toNat_eq h, State.skipIf_eq, State.setPc]
  simp only [Option.some_beq_some, beq_iff_eq]

/-- A skip on a V[x] that names no key is not taken, whichever state it wants (R221, R222). -/
theorem State.skipIf_keyState_of_ge (s : State) {v : Byte} (wanted : Bool) (h : 16 ≤ v.toNat) :
    s.skipIf (s.keyState v == some wanted) = s := by
  rw [s.keyState_of_ge h, Option.none_beq_some, State.skipIf_false]

/-- In a Tick FX07 reads DT before the Tick's ending decrements it (R223). -/
theorem tick_of_decode_ldVxDT {s : State} {op : Word} {x : Reg} (cycleCounter : Nat) (hf : s.fetch = .ok op)
    (hd : decode op = .instr (.ldVxDT x)) :
    tick cycleCounter s = .next ((s.setSeed (seedOf cycleCounter)).setV x s.DT).endTick :=
  tick_of_execDecoded_next hf (by rw [hd, execDecoded, exec_ldVxDT, State.setSeed_DT])

/-! ### The obligations -/

/-- Settles O44: each skip compares the named key's state with its own polarity, and a V[x] that names no key skips
under neither. -/
theorem keySkipsReadKeyState : Obligations.KeySkipsReadKeyState := by
  refine ⟨selects_skp, selects_sknp, fun s x => ⟨fun k hk => ⟨?_, ?_⟩, fun hlarge => ⟨?_, ?_⟩⟩⟩
  · rw [exec_skp, s.skipIf_keyState_of_toNat_eq true hk]
  · rw [exec_sknp, s.skipIf_keyState_of_toNat_eq false hk]
  · rw [exec_skp, s.skipIf_keyState_of_ge true hlarge]
  · rw [exec_sknp, s.skipIf_keyState_of_ge false hlarge]

/-- Settles O45: the next state is the one write of DT to V[x], and the Tick's ending then steps the DT that the write
left alone. -/
theorem ldVxDTReadsDelayTimer : Obligations.LdVxDTReadsDelayTimer := by
  refine ⟨selects_ldVxDT, fun s x => ⟨⟨s.setV x s.DT, exec_ldVxDT x s, s.getV_setV_same x _, s.setV_sameRegsExcept x _,
    s.setV_frame x _, s.setV_sameMemory x _⟩, fun op cycleCounter hf hd =>
      ⟨_, tick_of_decode_ldVxDT cycleCounter hf hd, ?_, ?_⟩⟩⟩
  · rw [State.endTick_getV, State.getV_setV_same]
  · rw [State.endTick_DT, State.setV_DT, State.setSeed_DT, timerStep]

end Sys2Proof.Machine

/-! ## Hangs (70_reset_and_hazards.md)

A 1NNN to its own address and FX0A with no press pending are one execute step, a rewind, which the Tick's shared advance
cancels. The state after such a Tick hangs at the same opcode, so a run of Ticks of any length stays at the same pc. -/

namespace Sys2Proof.Machine

/-- `s` fetches `op` and it is one of the two hangs: a 1NNN to its own address, or FX0A with no press pending (R313). -/
def State.HangsAt (s : State) (op : Word) : Prop :=
  s.fetch = .ok op ∧
    ((∃ nnn : Addr, decode op = .instr (.jp nnn) ∧ s.pc = nnn.setWidth 16) ∨
      (∃ x, decode op = .instr (.ldVxK x) ∧ s.keyPressedThisTick = false))

/-! ### The execute steps -/

/-- A jump to its own address writes what a rewind writes. -/
theorem exec_jp_self {s : State} {nnn : Addr} (hpc : s.pc = nnn.setWidth 16) : exec (.jp nnn) s = .next s.rewind := by
  rw [exec_jp, ← hpc, State.jumpTo, State.rewind]

theorem exec_ldVxK (x : Reg) (s : State) : exec (.ldVxK x) s =
    .next (if s.keyPressedThisTick then s.setV x (BitVec.ofNat 8 s.lastKey.val) else s.rewind) := rfl

theorem exec_ldVxK_of_not_pressed {s : State} (x : Reg) (h : s.keyPressedThisTick = false) :
    exec (.ldVxK x) s = .next s.rewind := by
  rw [exec_ldVxK, h, if_neg Bool.false_ne_true]

/-- Both hangs are the same execute step, whatever seed the Tick has stored. -/
theorem State.HangsAt.execDecoded_eq {s : State} {op : Word} (h : s.HangsAt op) (seed : Byte) :
    execDecoded (decode op) (s.setSeed seed) = .next (s.setSeed seed).rewind := by
  obtain ⟨-, ⟨nnn, hd, hpc⟩ | ⟨x, hd, hkey⟩⟩ := h
  · rw [hd]
    exact exec_jp_self hpc
  · rw [hd]
    exact exec_ldVxK_of_not_pressed x hkey

/-! ### The Tick of a hang -/

/-- The shared advance cancels a rewind, the wrap below 0 included. -/
theorem State.rewind_endTick_pc (s : State) : s.rewind.endTick.pc = s.pc :=
  BitVec.sub_add_cancel s.pc 2

/-- Fetch reads pc and live memory, and nothing else. -/
theorem State.fetch_congr {s t : State} (hpc : t.pc = s.pc) (hmem : SameMemory s t) : t.fetch = s.fetch := by
  rw [State.fetch, State.fetch, hpc, hmem, hmem]

/-- The Tick of a hang completes, at the same pc, in a state that hangs at the same opcode. -/
theorem State.HangsAt.tick_next {s : State} {op : Word} (h : s.HangsAt op) (cycleCounter : Nat) :
    ∃ t, tick cycleCounter s = .next t ∧ t.pc = s.pc ∧ t.HangsAt op := by
  have hexec := h.execDecoded_eq (seedOf cycleCounter)
  obtain ⟨hf, hhang⟩ := h
  have hpc : (s.setSeed (seedOf cycleCounter)).rewind.endTick.pc = s.pc := State.rewind_endTick_pc _
  refine ⟨_, tick_of_execDecoded_next hf hexec, hpc, ?_, ?_⟩
  · exact (State.fetch_congr hpc fun _ => rfl).trans hf
  · obtain ⟨nnn, hd, hself⟩ | ⟨x, hd, -⟩ := hhang
    · exact .inl ⟨nnn, hd, hpc.trans hself⟩
    · exact .inr ⟨x, hd, State.endTick_keyPressedThisTick _⟩

/-- The hang is an invariant of its own Ticks, so a run of any length completes at the same pc. -/
theorem State.HangsAt.ticksTo {s : State} {op : Word} (h : s.HangsAt op) (cycleCounters : List Nat) :
    ∃ t, TicksTo s cycleCounters t ∧ t.pc = s.pc := by
  induction cycleCounters generalizing s with
  | nil => exact ⟨s, .nil s, rfl⟩
  | cons cycleCounter rest ih =>
    obtain ⟨t, htick, htpc, ht⟩ := h.tick_next cycleCounter
    obtain ⟨u, hrun, hupc⟩ := ih ht
    exact ⟨u, .cons htick hrun, hupc.trans htpc⟩

/-! ### The obligation -/

/-- Settles O19: each hang leads to a hang at the same opcode and pc, by induction on the Ticks. -/
theorem hangsRunForEver : Obligations.HangsRunForEver :=
  fun _ _ hf hhang => State.HangsAt.ticksTo ⟨hf, hhang⟩

end Sys2Proof.Machine

/-! ## The opcode map (30_encoding.md sections 1 to 3)

Every row of R81 is one `selects_` lemma: a word under the row's mask reads as the row's instruction with the word's own
fields. `Instr.withFields` states the 34 of them at once, and the converse, that a decoded word selects its instruction's
row, makes the decoder, the encoder and the table one another's inverses. -/

namespace Sys2Proof.Machine

/-! ### The rows the sections above do not read -/

theorem decode_of_majorNibble_0 {op : Word} (hn0 : majorNibble op = 0x0#4) : decode op = decode0 op := by
  rw [decode, hn0]
  rfl

/-- The rows of n0 = 0 are told apart by NN alone (30_encoding.md R76). -/
theorem selects_of_decode0 {nn : Byte} {f : Word → Instr}
    (hf : ∀ op : Word, fieldNN op = nn → decode0 op = .instr (f op)) : Selects (wordXNN 0x0#4 0 nn) 0xF0FF f := by
  intro op h
  obtain ⟨hn0, hnn⟩ := fields_of_maskF0FF h
  rw [decode_of_majorNibble_0 hn0, hf op hnn]

theorem selects_cls : Selects 0x00E0 0xF0FF (fun _ => .cls) :=
  selects_of_decode0 (nn := 0xE0#8) fun op hnn => by simp only [decode0, hnn]

theorem selects_ret : Selects 0x00EE 0xF0FF (fun _ => .ret) :=
  selects_of_decode0 (nn := 0xEE#8) fun op hnn => by simp only [decode0, hnn]

theorem selects_call : Selects 0x2000 0xF000 (fun op => .call (fieldNNN op)) :=
  selects_of_majorNibble (n := 0x2#4) fun op hn0 => by simp only [decode, hn0]

theorem selects_seImm : Selects 0x3000 0xF000 (fun op => .seImm (fieldX op) (fieldNN op)) :=
  selects_of_majorNibble (n := 0x3#4) fun op hn0 => by simp only [decode, hn0]

theorem selects_sneImm : Selects 0x4000 0xF000 (fun op => .sneImm (fieldX op) (fieldNN op)) :=
  selects_of_majorNibble (n := 0x4#4) fun op hn0 => by simp only [decode, hn0]

theorem selects_seReg : Selects 0x5000 0xF000 (fun op => .seReg (fieldX op) (fieldY op)) :=
  selects_of_majorNibble (n := 0x5#4) fun op hn0 => by simp only [decode, hn0]

theorem selects_sneReg : Selects 0x9000 0xF000 (fun op => .sneReg (fieldX op) (fieldY op)) :=
  selects_of_majorNibble (n := 0x9#4) fun op hn0 => by simp only [decode, hn0]

theorem selects_jpOff : Selects 0xB000 0xF000 (fun op => .jpOff (fieldNNN op) (fieldX op)) :=
  selects_of_majorNibble (n := 0xB#4) fun op hn0 => by simp only [decode, hn0]

theorem selects_drw : Selects 0xD000 0xF000 (fun op => .drw (fieldX op) (fieldY op) (fieldN op)) :=
  selects_of_majorNibble (n := 0xD#4) fun op hn0 => by simp only [decode, hn0]

theorem selects_orReg : Selects 0x8001 0xF00F (fun op => .orReg (fieldX op) (fieldY op)) :=
  selects_of_decode8 (k := 0x1#4) fun op hn3 => by simp only [decode8, hn3]

theorem selects_andReg : Selects 0x8002 0xF00F (fun op => .andReg (fieldX op) (fieldY op)) :=
  selects_of_decode8 (k := 0x2#4) fun op hn3 => by simp only [decode8, hn3]

theorem selects_xorReg : Selects 0x8003 0xF00F (fun op => .xorReg (fieldX op) (fieldY op)) :=
  selects_of_decode8 (k := 0x3#4) fun op hn3 => by simp only [decode8, hn3]

theorem selects_addReg : Selects 0x8004 0xF00F (fun op => .addReg (fieldX op) (fieldY op)) :=
  selects_of_decode8 (k := 0x4#4) fun op hn3 => by simp only [decode8, hn3]

theorem selects_shr : Selects 0x8006 0xF00F (fun op => .shr (fieldX op) (fieldY op)) :=
  selects_of_decode8 (k := 0x6#4) fun op hn3 => by simp only [decode8, hn3]

theorem selects_shl : Selects 0x800E 0xF00F (fun op => .shl (fieldX op) (fieldY op)) :=
  selects_of_decode8 (k := 0xE#4) fun op hn3 => by simp only [decode8, hn3]

theorem selects_ldVxK : Selects 0xF00A 0xF0FF (fun op => .ldVxK (fieldX op)) :=
  selects_of_decodeF (nn := 0x0A#8) fun op hnn => by simp only [decodeF, hnn]

theorem selects_ldDTVx : Selects 0xF015 0xF0FF (fun op => .ldDTVx (fieldX op)) :=
  selects_of_decodeF (nn := 0x15#8) fun op hnn => by simp only [decodeF, hnn]

theorem selects_ldSTVx : Selects 0xF018 0xF0FF (fun op => .ldSTVx (fieldX op)) :=
  selects_of_decodeF (nn := 0x18#8) fun op hnn => by simp only [decodeF, hnn]

theorem selects_addI : Selects 0xF01E 0xF0FF (fun op => .addI (fieldX op)) :=
  selects_of_decodeF (nn := 0x1E#8) fun op hnn => by simp only [decodeF, hnn]

theorem selects_ldB : Selects 0xF033 0xF0FF (fun op => .ldB (fieldX op)) :=
  selects_of_decodeF (nn := 0x33#8) fun op hnn => by simp only [decodeF, hnn]

theorem selects_storeRegs : Selects 0xF055 0xF0FF (fun op => .storeRegs (fieldX op)) :=
  selects_of_decodeF (nn := 0x55#8) fun op hnn => by simp only [decodeF, hnn]

theorem selects_loadRegs : Selects 0xF065 0xF0FF (fun op => .loadRegs (fieldX op)) :=
  selects_of_decodeF (nn := 0x65#8) fun op hnn => by simp only [decodeF, hnn]

end Sys2Proof.Machine

namespace Sys2Proof

/-! ### The instruction a word selects -/

/-- The instruction of `i`'s row whose operands are the fields of `op` (30_encoding.md R71-R74, R81). -/
def Instr.withFields (op : Word) : Instr → Instr
  | .cls => .cls
  | .ret => .ret
  | .jp _ => .jp (fieldNNN op)
  | .call _ => .call (fieldNNN op)
  | .seImm _ _ => .seImm (fieldX op) (fieldNN op)
  | .sneImm _ _ => .sneImm (fieldX op) (fieldNN op)
  | .seReg _ _ => .seReg (fieldX op) (fieldY op)
  | .ldImm _ _ => .ldImm (fieldX op) (fieldNN op)
  | .addImm _ _ => .addImm (fieldX op) (fieldNN op)
  | .ldReg _ _ => .ldReg (fieldX op) (fieldY op)
  | .orReg _ _ => .orReg (fieldX op) (fieldY op)
  | .andReg _ _ => .andReg (fieldX op) (fieldY op)
  | .xorReg _ _ => .xorReg (fieldX op) (fieldY op)
  | .addReg _ _ => .addReg (fieldX op) (fieldY op)
  | .sub _ _ => .sub (fieldX op) (fieldY op)
  | .shr _ _ => .shr (fieldX op) (fieldY op)
  | .subn _ _ => .subn (fieldX op) (fieldY op)
  | .shl _ _ => .shl (fieldX op) (fieldY op)
  | .sneReg _ _ => .sneReg (fieldX op) (fieldY op)
  | .ldI _ => .ldI (fieldNNN op)
  | .jpOff _ _ => .jpOff (fieldNNN op) (fieldX op)
  | .rnd _ _ => .rnd (fieldX op) (fieldNN op)
  | .drw _ _ _ => .drw (fieldX op) (fieldY op) (fieldN op)
  | .skp _ => .skp (fieldX op)
  | .sknp _ => .sknp (fieldX op)
  | .ldVxDT _ => .ldVxDT (fieldX op)
  | .ldVxK _ => .ldVxK (fieldX op)
  | .ldDTVx _ => .ldDTVx (fieldX op)
  | .ldSTVx _ => .ldSTVx (fieldX op)
  | .addI _ => .addI (fieldX op)
  | .ldF _ => .ldF (fieldX op)
  | .ldB _ => .ldB (fieldX op)
  | .storeRegs _ => .storeRegs (fieldX op)
  | .loadRegs _ => .loadRegs (fieldX op)

/-- Operands do not move an instruction to another row. -/
@[simp] theorem Instr.withFields_row (op : Word) (i : Instr) : (i.withFields op).row = i.row := by
  cases i <;> rfl

theorem OpcodeRow.selects_iff (r : OpcodeRow) (op : Word) : r.selects op = true ↔ op &&& r.mask = r.value :=
  beq_iff_eq

end Sys2Proof

namespace Sys2Proof.Machine

/-- R81's table read as a decoder: a word that selects an instruction's row decodes to the instruction of that row that
holds the word's fields. -/
theorem decode_of_row_selects {i : Instr} {op : Word} (h : i.row.selects op = true) :
    decode op = .instr (i.withFields op) := by
  have h := (i.row.selects_iff op).mp h
  cases i with
  | cls => exact selects_cls op h
  | ret => exact selects_ret op h
  | jp _ => exact selects_jp op h
  | call _ => exact selects_call op h
  | seImm _ _ => exact selects_seImm op h
  | sneImm _ _ => exact selects_sneImm op h
  | seReg _ _ => exact selects_seReg op h
  | ldImm _ _ => exact selects_ldImm op h
  | addImm _ _ => exact selects_addImm op h
  | ldReg _ _ => exact selects_ldReg op h
  | orReg _ _ => exact selects_orReg op h
  | andReg _ _ => exact selects_andReg op h
  | xorReg _ _ => exact selects_xorReg op h
  | addReg _ _ => exact selects_addReg op h
  | sub _ _ => exact selects_sub op h
  | shr _ _ => exact selects_shr op h
  | subn _ _ => exact selects_subn op h
  | shl _ _ => exact selects_shl op h
  | sneReg _ _ => exact selects_sneReg op h
  | ldI _ => exact selects_ldI op h
  | jpOff _ _ => exact selects_jpOff op h
  | rnd _ _ => exact selects_rnd op h
  | drw _ _ _ => exact selects_drw op h
  | skp _ => exact selects_skp op h
  | sknp _ => exact selects_sknp op h
  | ldVxDT _ => exact selects_ldVxDT op h
  | ldVxK _ => exact selects_ldVxK op h
  | ldDTVx _ => exact selects_ldDTVx op h
  | ldSTVx _ => exact selects_ldSTVx op h
  | addI _ => exact selects_addI op h
  | ldF _ => exact selects_ldF op h
  | ldB _ => exact selects_ldB op h
  | storeRegs _ => exact selects_storeRegs op h
  | loadRegs _ => exact selects_loadRegs op h

/-- The encoder writes each instruction's word inside its own row (R81). -/
theorem encode_selects_row (i : Instr) : i.row.selects (encode i) = true := by
  cases i with
  | cls => exact Laws.EncodedInRow.cls
  | ret => exact Laws.EncodedInRow.ret
  | jp nnn => exact Laws.EncodedInRow.jp nnn
  | call nnn => exact Laws.EncodedInRow.call nnn
  | seImm x nn => exact Laws.EncodedInRow.seImm x nn
  | sneImm x nn => exact Laws.EncodedInRow.sneImm x nn
  | seReg x y => exact Laws.EncodedInRow.seReg x y
  | ldImm x nn => exact Laws.EncodedInRow.ldImm x nn
  | addImm x nn => exact Laws.EncodedInRow.addImm x nn
  | ldReg x y => exact Laws.EncodedInRow.ldReg x y
  | orReg x y => exact Laws.EncodedInRow.orReg x y
  | andReg x y => exact Laws.EncodedInRow.andReg x y
  | xorReg x y => exact Laws.EncodedInRow.xorReg x y
  | addReg x y => exact Laws.EncodedInRow.addReg x y
  | sub x y => exact Laws.EncodedInRow.sub x y
  | shr x y => exact Laws.EncodedInRow.shr x y
  | subn x y => exact Laws.EncodedInRow.subn x y
  | shl x y => exact Laws.EncodedInRow.shl x y
  | sneReg x y => exact Laws.EncodedInRow.sneReg x y
  | ldI nnn => exact Laws.EncodedInRow.ldI nnn
  | jpOff nnn x => exact Laws.EncodedInRow.jpOff nnn x
  | rnd x nn => exact Laws.EncodedInRow.rnd x nn
  | drw x y n => exact Laws.EncodedInRow.drw x y n
  | skp x => exact Laws.EncodedInRow.skp x
  | sknp x => exact Laws.EncodedInRow.sknp x
  | ldVxDT x => exact Laws.EncodedInRow.ldVxDT x
  | ldVxK x => exact Laws.EncodedInRow.ldVxK x
  | ldDTVx x => exact Laws.EncodedInRow.ldDTVx x
  | ldSTVx x => exact Laws.EncodedInRow.ldSTVx x
  | addI x => exact Laws.EncodedInRow.addI x
  | ldF x => exact Laws.EncodedInRow.ldF x
  | ldB x => exact Laws.EncodedInRow.ldB x
  | storeRegs x => exact Laws.EncodedInRow.storeRegs x
  | loadRegs x => exact Laws.EncodedInRow.loadRegs x

/-- BNNN's register is the top nibble of its address in every word (R74). -/
theorem fieldX_wordNNN_of_matches {nnn : Addr} {x : Reg} (n0 : BitVec 4) (h : offsetRegisterMatches nnn x = true) :
    fieldX (wordNNN n0 nnn) = x := by
  have hx : x.val = nnn.toNat / 256 := beq_iff_eq.mp h
  apply Fin.ext
  rw [fieldX_val, wordNNN_toNat, hx]
  omega

/-- The fields of a well-formed instruction's word are its operands. -/
theorem withFields_encode {i : Instr} (hwf : i.wf = true) : i.withFields (encode i) = i := by
  cases i with
  | jpOff nnn x => simp only [Instr.withFields, encode, fieldNNN_wordNNN, fieldX_wordNNN_of_matches _ hwf]
  | _ => simp [Instr.withFields, encode]

/-- Settles O2: the instruction's word selects its row, and holds its operands as its fields. -/
theorem decodeOfEncodeIsIdentity : Obligations.DecodeOfEncodeIsIdentity := by
  intro i hwf
  rw [decode_of_row_selects (encode_selects_row i), withFields_encode hwf]

/-! ### The row a decoded word selects -/

theorem and_maskF000_of_majorNibble {op : Word} {n : BitVec 4} (h : majorNibble op = n) :
    op &&& 0xF000#16 = wordXYN n 0 0 0 := by
  apply BitVec.eq_of_toNat_eq
  rw [and_maskF000, wordXYN_toNat, ← h, majorNibble_toNat]
  simp

theorem and_maskF00F_of_fields {op : Word} {n k : BitVec 4} (hn0 : majorNibble op = n) (hn3 : op.extractLsb' 0 4 = k) :
    op &&& 0xF00F#16 = wordXYN n 0 0 k := by
  apply BitVec.eq_of_toNat_eq
  rw [and_maskF00F, wordXYN_toNat, ← hn0, ← hn3, majorNibble_toNat, lowNibble_toNat]
  simp

theorem and_maskF0FF_of_fields {op : Word} {n : BitVec 4} {nn : Byte} (hn0 : majorNibble op = n)
    (hnn : fieldNN op = nn) : op &&& 0xF0FF#16 = wordXNN n 0 nn := by
  apply BitVec.eq_of_toNat_eq
  rw [and_maskF0FF, wordXNN_toNat, ← hn0, ← hnn, majorNibble_toNat, fieldNN_toNat]
  simp

/-- `i` is the instruction of the one row that `op` selects, with `op`'s fields. -/
def ReadFromRow (op : Word) (i : Instr) : Prop := i.row.selects op = true ∧ i.withFields op = i

theorem readFromRow_of_maskF000 {op : Word} {n : BitVec 4} {i : Instr} (hn0 : majorNibble op = n)
    (hmask : i.row.mask = 0xF000) (hvalue : i.row.value = wordXYN n 0 0 0) (hfields : i.withFields op = i) :
    ReadFromRow op i :=
  ⟨(i.row.selects_iff op).mpr (by rw [hmask, hvalue]; exact and_maskF000_of_majorNibble hn0), hfields⟩

theorem readFromRow_of_maskF00F {op : Word} {n k : BitVec 4} {i : Instr} (hn0 : majorNibble op = n)
    (hn3 : op.extractLsb' 0 4 = k) (hmask : i.row.mask = 0xF00F) (hvalue : i.row.value = wordXYN n 0 0 k)
    (hfields : i.withFields op = i) : ReadFromRow op i :=
  ⟨(i.row.selects_iff op).mpr (by rw [hmask, hvalue]; exact and_maskF00F_of_fields hn0 hn3), hfields⟩

theorem readFromRow_of_maskF0FF {op : Word} {n : BitVec 4} {nn : Byte} {i : Instr} (hn0 : majorNibble op = n)
    (hnn : fieldNN op = nn) (hmask : i.row.mask = 0xF0FF) (hvalue : i.row.value = wordXNN n 0 nn)
    (hfields : i.withFields op = i) : ReadFromRow op i :=
  ⟨(i.row.selects_iff op).mpr (by rw [hmask, hvalue]; exact and_maskF0FF_of_fields hn0 hnn), hfields⟩

theorem readFromRow_of_decode0 {op : Word} {i : Instr} (hn0 : majorNibble op = 0x0#4) (h : decode0 op = .instr i) :
    ReadFromRow op i := by
  unfold decode0 at h
  split at h <;> cases h <;> exact readFromRow_of_maskF0FF hn0 ‹_› rfl rfl rfl

theorem readFromRow_of_decode8 {op : Word} {i : Instr} (hn0 : majorNibble op = 0x8#4) (h : decode8 op = .instr i) :
    ReadFromRow op i := by
  unfold decode8 at h
  split at h <;> cases h <;> exact readFromRow_of_maskF00F hn0 ‹_› rfl rfl rfl

theorem readFromRow_of_decodeE {op : Word} {i : Instr} (hn0 : majorNibble op = 0xE#4) (h : decodeE op = .instr i) :
    ReadFromRow op i := by
  unfold decodeE at h
  split at h <;> cases h <;> exact readFromRow_of_maskF0FF hn0 ‹_› rfl rfl rfl

theorem readFromRow_of_decodeF {op : Word} {i : Instr} (hn0 : majorNibble op = 0xF#4) (h : decodeF op = .instr i) :
    ReadFromRow op i := by
  unfold decodeF at h
  split at h <;> cases h <;> exact readFromRow_of_maskF0FF hn0 ‹_› rfl rfl rfl

/-- The first-level dispatch: n0 = 0, 8, E and F go on to a secondary switch, every other n0 names its row (R75, R80). -/
theorem decode_dispatch (op : Word) :
    (majorNibble op = 0x0#4 ∧ decode op = decode0 op) ∨ (majorNibble op = 0x8#4 ∧ decode op = decode8 op) ∨
    (majorNibble op = 0xE#4 ∧ decode op = decodeE op) ∨ (majorNibble op = 0xF#4 ∧ decode op = decodeF op) ∨
    (majorNibble op ∉ [0x0#4, 0x8#4, 0xE#4, 0xF#4] ∧ ∃ i, decode op = .instr i ∧ ReadFromRow op i) := by
  unfold decode
  split
  case h_1 hn0 => exact .inl ⟨hn0, rfl⟩
  case h_9 hn0 => exact .inr (.inl ⟨hn0, rfl⟩)
  case h_15 hn0 => exact .inr (.inr (.inl ⟨hn0, rfl⟩))
  case h_16 =>
    refine .inr (.inr (.inr (.inl ⟨?_, rfl⟩)))
    generalize majorNibble op = n at *
    revert n
    decide
  all_goals
    next hn0 =>
    refine .inr (.inr (.inr (.inr ⟨?_, _, rfl, readFromRow_of_maskF000 hn0 rfl rfl rfl⟩)))
    rw [hn0]
    decide

/-- A word that decodes to an instruction selects that instruction's row and holds its operands. -/
theorem readFromRow_of_decode {op : Word} {i : Instr} (h : decode op = .instr i) : ReadFromRow op i := by
  obtain ⟨hn0, hd⟩ | ⟨hn0, hd⟩ | ⟨hn0, hd⟩ | ⟨hn0, hd⟩ | ⟨-, j, hd, hrow⟩ := decode_dispatch op <;> rw [hd] at h
  · exact readFromRow_of_decode0 hn0 h
  · exact readFromRow_of_decode8 hn0 h
  · exact readFromRow_of_decodeE hn0 h
  · exact readFromRow_of_decodeF hn0 h
  · cases h
    exact hrow

/-! ### The word of an instruction with a word's own fields -/

theorem and_maskFFFF (op : Word) : op &&& 0xFFFF#16 = op := by
  rw [show (0xFFFF#16 : Word) = BitVec.allOnes 16 from rfl, BitVec.and_allOnes]

theorem wordNNN_fields {op : Word} {n : BitVec 4} (h : op &&& 0xF000#16 = wordXYN n 0 0 0) :
    wordNNN n (fieldNNN op) = op &&& 0xFFFF#16 := by
  rw [and_maskFFFF, ← majorNibble_of_maskF000 h]
  apply BitVec.eq_of_toNat_eq
  rw [wordNNN_toNat, majorNibble_toNat, fieldNNN_toNat]
  omega

theorem wordXNN_fields {op : Word} {n : BitVec 4} (h : op &&& 0xF000#16 = wordXYN n 0 0 0) :
    wordXNN n (nibble (fieldX op)) (fieldNN op) = op &&& 0xFFFF#16 := by
  rw [and_maskFFFF, ← majorNibble_of_maskF000 h]
  apply BitVec.eq_of_toNat_eq
  rw [wordXNN_toNat, majorNibble_toNat, nibble_toNat, fieldX_val, fieldNN_toNat]
  omega

theorem wordXYN_fields {op : Word} {n : BitVec 4} (h : op &&& 0xF000#16 = wordXYN n 0 0 0) :
    wordXYN n (nibble (fieldX op)) (nibble (fieldY op)) (nibble (fieldN op)) = op &&& 0xFFFF#16 := by
  rw [and_maskFFFF, ← majorNibble_of_maskF000 h, ← word_eq_XYN]

theorem wordXY0_fields {op : Word} {n : BitVec 4} (h : op &&& 0xF000#16 = wordXYN n 0 0 0) :
    wordXYN n (nibble (fieldX op)) (nibble (fieldY op)) 0 = op &&& 0xFFF0#16 := by
  rw [← majorNibble_of_maskF000 h]
  apply BitVec.eq_of_toNat_eq
  rw [wordXYN_toNat, and_maskFFF0, majorNibble_toNat, nibble_toNat, nibble_toNat, fieldX_val, fieldY_val]
  simp
  omega

theorem wordXYk_fields {op : Word} {n k : BitVec 4} (h : op &&& 0xF00F#16 = wordXYN n 0 0 k) :
    wordXYN n (nibble (fieldX op)) (nibble (fieldY op)) k = op &&& 0xFFFF#16 := by
  obtain ⟨hn0, hn3⟩ := fields_of_maskF00F h
  rw [and_maskFFFF, ← hn0, ← hn3]
  exact (word_eq_XYN op).symm

theorem wordXnn_fields {op : Word} {n : BitVec 4} {nn : Byte} (h : op &&& 0xF0FF#16 = wordXNN n 0 nn) :
    wordXNN n (nibble (fieldX op)) nn = op &&& 0xFFFF#16 := by
  obtain ⟨hn0, hnn⟩ := fields_of_maskF0FF h
  subst hn0 hnn
  exact wordXNN_fields (and_maskF000_of_majorNibble rfl)

/-- Encoding an instruction with the fields of a word of its row gives the word back, but for the bits the row does not
examine. -/
theorem encode_withFields {i : Instr} {op : Word} (h : i.row.selects op = true) :
    encode (i.withFields op) = op &&& i.examinedBits := by
  have h := (i.row.selects_iff op).mp h
  cases i with
  | cls | ret => exact h.symm
  | jp _ | call _ | ldI _ | jpOff _ _ => exact wordNNN_fields h
  | seImm _ _ | sneImm _ _ | ldImm _ _ | addImm _ _ | rnd _ _ => exact wordXNN_fields h
  | drw _ _ _ => exact wordXYN_fields h
  | seReg _ _ | sneReg _ _ => exact wordXY0_fields h
  | ldReg _ _ | orReg _ _ | andReg _ _ | xorReg _ _ | addReg _ _ | sub _ _ | shr _ _ | subn _ _ | shl _ _ =>
    exact wordXYk_fields h
  | skp _ | sknp _ | ldVxDT _ | ldVxK _ | ldDTVx _ | ldSTVx _ | addI _ | ldF _ | ldB _ | storeRegs _ | loadRegs _ =>
    exact wordXnn_fields h

/-- A word's fields make a well-formed instruction: BNNN's two fields are read from the same bits (R74). -/
theorem withFields_wf (op : Word) (i : Instr) : (i.withFields op).wf = true := by
  cases i with
  | jpOff _ _ =>
    refine beq_iff_eq.mpr ?_
    rw [fieldX_val, fieldNNN_toNat]
    omega
  | _ => rfl

/-- Settles O3: a decoded instruction is its row's with the word's fields, and those encode to the word's examined
bits. -/
theorem encodeOfDecodeIsExaminedBits : Obligations.EncodeOfDecodeIsExaminedBits := by
  intro op i hd
  obtain ⟨hrow, hfields⟩ := readFromRow_of_decode hd
  constructor
  · rw [← hfields]
    exact withFields_wf op i
  · rw [← encode_withFields hrow, hfields]

/-! ### The table -/

/-- The decoder names an unknown opcode by itself (R82, R87). -/
theorem eq_of_decode_unknown {op op' : Word} (h : decode op = .unknown op') : op' = op := by
  unfold decode decode0 decode8 decodeE decodeF at h
  split at h
  case h_1 | h_9 | h_15 | h_16 => split at h <;> cases h; rfl
  all_goals cases h

/-- A word is an instruction or the unknown opcode of that word (R87). -/
theorem decode_cases (op : Word) : (∃ i, decode op = .instr i) ∨ decode op = .unknown op := by
  cases hd : decode op with
  | instr i => exact .inl ⟨i, rfl⟩
  | unknown op' => rw [eq_of_decode_unknown hd]; exact .inr rfl

/-- The table lists each row by its instruction with every operand 0. -/
theorem withFields_zero_mem (i : Instr) : i.withFields 0 ∈ instrOfEachRow := by
  cases i <;> exact List.elem_iff.mp rfl

theorem row_mem_opcodeTable (i : Instr) : i.row ∈ opcodeTable :=
  List.mem_map.mpr ⟨i.withFields 0, withFields_zero_mem i, i.withFields_row 0⟩

/-- A word that selects a row of the table decodes to an instruction of that row (R81). -/
theorem exists_decode_of_selects {r : OpcodeRow} {op : Word} (hr : r ∈ opcodeTable) (h : r.selects op = true) :
    ∃ i, decode op = .instr i ∧ i.row = r := by
  obtain ⟨i, -, rfl⟩ := List.mem_map.mp hr
  exact ⟨i.withFields op, decode_of_row_selects h, i.withFields_row op⟩

theorem decode_unknown_iff_selects_none (op : Word) :
    decode op = .unknown op ↔ ∀ r ∈ opcodeTable, r.selects op = false := by
  constructor
  · intro hd r hr
    by_contra hsel
    obtain ⟨i, hi, -⟩ := exists_decode_of_selects hr (Bool.eq_true_of_not_eq_false hsel)
    rw [hd] at hi
    cases hi
  · intro hnone
    obtain ⟨i, hd⟩ | hd := decode_cases op
    · have hsel := (readFromRow_of_decode hd).1
      rw [hnone _ (row_mem_opcodeTable i)] at hsel
      cases hsel
    · exact hd

/-- The decoder is a function, so no word selects two rows. -/
theorem row_unique {op : Word} {r r' : OpcodeRow} (hr : r ∈ opcodeTable) (hr' : r' ∈ opcodeTable)
    (h : r.selects op = true) (h' : r'.selects op = true) : r = r' := by
  obtain ⟨i, hd, rfl⟩ := exists_decode_of_selects hr h
  obtain ⟨i', hd', rfl⟩ := exists_decode_of_selects hr' h'
  rw [hd] at hd'
  cases hd'
  rfl

/-- Settles O4: decoding is selecting a row, in both directions. -/
theorem decoderIsTheOpcodeMap : Obligations.DecoderIsTheOpcodeMap :=
  ⟨rfl, fun op => ⟨fun i hd => ⟨row_mem_opcodeTable i, (readFromRow_of_decode hd).1⟩,
    fun _ hr h => exists_decode_of_selects hr h, decode_unknown_iff_selects_none op,
    fun _ hr _ hr' h h' => row_unique hr hr' h h'⟩⟩

/-! ### The unknown-opcode space -/

theorem decode0_unknown_iff (op : Word) : decode0 op = .unknown op ↔ fieldNN op ∉ [0xE0#8, 0xEE#8] := by
  unfold decode0; split <;> simp_all

theorem decode8_unknown_iff (op : Word) :
    decode8 op = .unknown op ↔ (fieldN op).val ∈ [0x8, 0x9, 0xA, 0xB, 0xC, 0xD, 0xF] := by
  have hfree : ∀ n : BitVec 4, n.toNat ∈ [0x8, 0x9, 0xA, 0xB, 0xC, 0xD, 0xF] ↔
      n ∉ [0x0#4, 0x1#4, 0x2#4, 0x3#4, 0x4#4, 0x5#4, 0x6#4, 0x7#4, 0xE#4] := by decide
  refine Iff.trans ?_ (hfree (op.extractLsb' 0 4)).symm
  unfold decode8
  split <;> simp_all

theorem decodeE_unknown_iff (op : Word) : decodeE op = .unknown op ↔ fieldNN op ∉ [0x9E#8, 0xA1#8] := by
  unfold decodeE; split <;> simp_all

theorem decodeF_unknown_iff (op : Word) : decodeF op = .unknown op ↔
    fieldNN op ∉ [0x07#8, 0x0A#8, 0x15#8, 0x18#8, 0x1E#8, 0x29#8, 0x33#8, 0x55#8, 0x65#8] := by
  unfold decodeF; split <;> simp_all

/-- Settles O5: each secondary switch leaves exactly the words of its own set, and every other n0 names an instruction. -/
theorem unknownSpaceIsExact : Obligations.UnknownSpaceIsExact := by
  intro op
  rw [← decode0_unknown_iff, ← decode8_unknown_iff, ← decodeE_unknown_iff, ← decodeF_unknown_iff]
  obtain ⟨hn0, hd⟩ | ⟨hn0, hd⟩ | ⟨hn0, hd⟩ | ⟨hn0, hd⟩ | ⟨hn0, i, hd, -⟩ := decode_dispatch op <;> rw [hd]
  case inr.inr.inr.inr => simp_all
  all_goals simp [hn0]

/-- Settles O1: the decoder run on each word. -/
theorem decodesKnownWords : Obligations.DecodesKnownWords := by
  unfold Obligations.DecodesKnownWords
  decide

end Sys2Proof.Machine

/-! ## What a Tick can do (00_scope.md section 7, 10_state.md sections 3, 6, 7, 10, 60_exceptions.md section 1)

`tick_cases` says how every Tick ends; each statement here is one fact about `exec`, or about the fields no instruction
writes, carried through it. -/

namespace Sys2Proof.Machine

/-- The state at the end of a Tick, written out (30_encoding.md R85). -/
theorem State.endTick_eq (s : State) : s.endTick =
    { s with pc := s.pc + 2, DT := timerStep s.DT, ST := timerStep s.ST, keyPressedThisTick := false } := rfl

/-- A Tick that completes has run an instruction or logged an unknown opcode, and then its ending. -/
theorem tick_next_cases {cycleCounter : Nat} {s t : State} (h : tick cycleCounter s = .next t) :
    (∃ op i u, s.fetch = .ok op ∧ decode op = .instr i ∧ exec i (s.setSeed (seedOf cycleCounter)) = .next u ∧
      ExecKeeps (s.setSeed (seedOf cycleCounter)) u ∧ t = u.endTick) ∨
    (∃ op, s.fetch = .ok op ∧ decode op = .unknown op ∧
      t = ((s.setSeed (seedOf cycleCounter)).emit (.logUnknownOpcode op)).endTick) := by
  obtain ⟨-, htick⟩ | ⟨op, i, u, hf, hd, hu, hk, htick⟩ | ⟨_, _, _, -, -, -, htick⟩ | ⟨op, hf, hd, htick⟩ :=
    tick_cases cycleCounter s <;> rw [htick] at h <;> cases h
  · exact .inl ⟨op, i, u, hf, hd, hu, hk, rfl⟩
  · exact .inr ⟨op, hf, hd, rfl⟩

/-- The fields a completed Tick may write; every other field is as before. -/
theorem tick_frame {cycleCounter : Nat} {s t : State} (h : tick cycleCounter s = .next t) :
    t = { s with mem := t.mem, V := t.V, I := t.I, pc := t.pc, stack := t.stack, sp := t.sp, DT := t.DT, ST := t.ST,
                 keyPressedThisTick := t.keyPressedThisTick, fb := t.fb, rndSeed := t.rndSeed, outputs := t.outputs } := by
  obtain ⟨op, i, u, -, -, -, hk, rfl⟩ | ⟨op, -, -, rfl⟩ := tick_next_cases h
  · rw [State.endTick_eq, hk.frame]
    rfl
  · rw [State.endTick_eq]
    rfl

/-- Settles O15: the fields named are none of those a Tick may write. -/
theorem tickLeavesHostOwnedState : Obligations.TickLeavesHostOwnedState := by
  intro cycleCounter s t h
  rw [tick_frame h]
  exact ⟨rfl, rfl, rfl, rfl, rfl, rfl, rfl, rfl, rfl⟩

/-! ### Fetch, unknown opcodes, refusals -/

theorem State.fetch_of_pc_le {s : State} (hpc : s.pc.toNat ≤ 0xFFE) :
    s.fetch = .ok (opcodeOfBytes (s.readByte s.pc.toNat) (s.readByte (s.pc.toNat + 1))) :=
  if_neg (Nat.not_lt.mpr hpc)

theorem tick_of_pc_gt {s : State} (hpc : 0xFFE < s.pc.toNat) (cycleCounter : Nat) :
    tick cycleCounter s = .fault (.faulted (.fetchOutOfRange s.pc) none s) := by
  have hf : s.fetch = .error (.fetchOutOfRange s.pc) := if_pos hpc
  simp only [tick, State.fetch_setSeed, hf, Fault.record]

theorem tick_of_decode_unknown {s : State} {op : Word} (cycleCounter : Nat) (hf : s.fetch = .ok op)
    (hd : decode op = .unknown op) :
    tick cycleCounter s = .next ((s.setSeed (seedOf cycleCounter)).emit (.logUnknownOpcode op)).endTick :=
  tick_of_execDecoded_next hf (by rw [hd, execDecoded, execUnknown])

/-- Settles O8: the next state is the end of a Tick after one log event, written out. -/
theorem unknownOpcodeIsNoOpAdvance : Obligations.UnknownOpcodeIsNoOpAdvance := by
  intro cycleCounter s op hf hd
  rw [tick_of_decode_unknown cycleCounter hf hd, State.endTick_eq]
  rfl

/-- Settles O9: the fetch of each side of the bound 0xFFE. -/
theorem fetchIsBigEndianOrFaults : Obligations.FetchIsBigEndianOrFaults := by
  intro s
  constructor
  · intro hpc
    exact ⟨_, State.fetch_of_pc_le hpc, opcodeOfBytes_toNat _ _⟩
  · exact tick_of_pc_gt

/-- A Tick ends in a next state or in the record of a fault, with the state before it. -/
theorem tick_next_or_faulted (cycleCounter : Nat) (s : State) :
    (∃ t, tick cycleCounter s = .next t) ∨ (∃ k op, tick cycleCounter s = .fault (.faulted k op s)) := by
  obtain ⟨-, h⟩ | ⟨_, _, _, -, -, -, -, h⟩ | ⟨_, _, _, -, -, -, h⟩ | ⟨_, -, -, h⟩ := tick_cases cycleCounter s
  · exact .inr ⟨_, _, h⟩
  · exact .inl ⟨_, h⟩
  · exact .inr ⟨_, _, h⟩
  · exact .inl ⟨_, h⟩

theorem tick_ne_refused (cycleCounter : Nat) (s : State) (r : Refusal) : tick cycleCounter s ≠ .refused r := by
  obtain ⟨t, h⟩ | ⟨k, op, h⟩ := tick_next_or_faulted cycleCounter s <;> rw [h] <;> exact nofun

/-- Only a Tick can end in anything but a next state. -/
theorem act_ne_refused (a : HostAction) (s : State) (r : Refusal) : act a s ≠ .refused r := by
  cases a with
  | tick cycleCounter => exact tick_ne_refused cycleCounter s r
  | _ => exact nofun

/-! ### Steps -/

theorem step_of_host_nil {s : State} (h : s.host = []) :
    step s = tick (Config.freeCycleCounter s.freeIndex) { s with freeIndex := s.freeIndex + 1 } := by
  simp only [step, h]

theorem step_of_host_cons {s : State} {a : HostAction} {rest : List HostAction} (h : s.host = a :: rest) :
    step s = act a { s with host := rest } := by
  simp only [step, h]

/-- Settles O50: the equation of a step with an action pending. -/
theorem stepTakesNextHostAction : Obligations.StepTakesNextHostAction := fun _ _ _ h => step_of_host_cons h

/-- A step is one host action, or a Tick with a free cycleCounter, on the state that no longer holds it. -/
theorem step_cases (s : State) :
    (s.host = [] ∧ step s = tick (Config.freeCycleCounter s.freeIndex) { s with freeIndex := s.freeIndex + 1 }) ∨
    (∃ a rest, s.host = a :: rest ∧ step s = act a { s with host := rest }) := by
  by_cases h : s.host = []
  · exact .inl ⟨h, step_of_host_nil h⟩
  · obtain ⟨a, rest, h⟩ := List.exists_cons_of_ne_nil h
    exact .inr ⟨a, rest, h, step_of_host_cons h⟩

/-- Settles O10: the decoder is total, and neither a Tick nor any other host action ends in a refusal. -/
theorem noStepIsRefused : Obligations.NoStepIsRefused := by
  refine ⟨decode_cases, tick_next_or_faulted, fun s r => ?_⟩
  obtain ⟨-, h⟩ | ⟨a, rest, -, h⟩ := step_cases s <;> rw [h]
  · exact tick_ne_refused _ _ r
  · exact act_ne_refused a _ r

/-- Settles O6: both ways a Tick comes are a Tick of the state `s'`, which fetches what `s` fetches. -/
theorem stepRunsDecodedInstruction : Obligations.StepRunsDecodedInstruction := by
  intro s s' cycleCounter i hnext hpc hd
  have hstep : step s = tick cycleCounter s' := by
    obtain ⟨rest, hhost, rfl⟩ | ⟨hhost, rfl, rfl⟩ := hnext
    · exact step_of_host_cons hhost
    · exact step_of_host_nil hhost
  have hf : s'.fetch = .ok (opcodeOfBytes (s.readByte s.pc.toNat) (s.readByte (s.pc.toNat + 1))) := by
    obtain ⟨rest, -, rfl⟩ | ⟨-, -, rfl⟩ := hnext <;> exact State.fetch_of_pc_le hpc
  have hd : decode (opcodeOfBytes (s.readByte s.pc.toNat) (s.readByte (s.pc.toNat + 1))) = .instr i := hd
  rw [hstep]
  constructor
  · intro t ht
    exact tick_of_execDecoded_next hf (by rw [hd]; exact ht)
  · intro k hk
    have hexec : execDecoded (.instr i) (s'.setSeed (seedOf cycleCounter)) = .fault (.raised k) := hk
    rw [tick_of_fetch hf, hd, hexec, finishTick, Fault.record]

/-! ### The instructions that can fault

Each of the six is `finish` of one shared operation, so what it can do is what that operation can do. -/

theorem exec_ret (s : State) : exec .ret s = finish s.popPc := rfl

theorem exec_call (nnn : Addr) (s : State) :
    exec (.call nnn) s = finish ((s.push s.pc).map fun t => t.jumpTo (nnn.setWidth 16)) := by
  simp only [exec, execCall]
  cases s.push s.pc <;> rfl

theorem exec_drw (x y : Reg) (n : Fin 16) (s : State) :
    exec (.drw x y n) s = finish (s.drawSprite (s.getV x) (s.getV y) n.val) := rfl

theorem exec_ldB (x : Reg) (s : State) : exec (.ldB x) s = finish (State.memWriteAll (s.bcdWrites x) s) := rfl

theorem exec_storeRegs (x : Reg) (s : State) :
    exec (.storeRegs x) s = finish ((State.memWriteAll (s.storeWrites x) s).map fun t => t.bumpI x) := by
  simp only [exec, execStoreRegs]
  cases State.memWriteAll (s.storeWrites x) s <;> rfl

theorem exec_loadRegs (x : Reg) (s : State) : exec (.loadRegs x) s =
    finish ((State.loadRegsFrom (s.effAddr 0) (regsThrough x) s).map fun t => t.bumpI x) := by
  simp only [exec, execLoadRegs]
  cases State.loadRegsFrom (s.effAddr 0) (regsThrough x) s <;> rfl

@[simp] theorem finish_eq_next {e : Except FaultKind State} {t : State} : finish e = .next t ↔ e = .ok t := by
  cases e <;> simp [finish, raise]

@[simp] theorem finish_eq_raised {e : Except FaultKind State} {k : FaultKind} :
    finish e = .fault (.raised k) ↔ e = .error k := by
  cases e <;> simp [finish, raise]

theorem map_eq_ok_iff {e : Except FaultKind State} {f : State → State} {t : State} :
    e.map f = .ok t ↔ ∃ u, e = .ok u ∧ f u = t := by
  cases e <;> simp [Except.map]

theorem map_eq_error_iff {e : Except FaultKind State} {f : State → State} {k : FaultKind} :
    e.map f = .error k ↔ e = .error k := by
  cases e <;> simp [Except.map]

theorem State.memWriteAll_frame {ws : List (Nat × Byte)} {s t : State} (h : State.memWriteAll ws s = .ok t) :
    t = { s with mem := t.mem } := by
  obtain ⟨hin, -⟩ | ⟨_, -, -, he⟩ := State.memWriteAll_cases ws s
  · obtain ⟨u, hu, hframe, -⟩ := State.memWriteAll_ok ws s hin
    rw [hu] at h
    cases h
    exact hframe
  · rw [he] at h
    cases h

theorem State.loadRegsFrom_frame {base : Nat} {rs : List Reg} {s t : State}
    (h : State.loadRegsFrom base rs s = .ok t) : t = { s with V := t.V } := by
  obtain ⟨hin, -⟩ | ⟨_, -, -, he⟩ := State.loadRegsFrom_cases base rs s
  · obtain ⟨u, hu, hframe, -⟩ := State.loadRegsFrom_ok base rs s hin
    rw [hu] at h
    cases h
    exact hframe
  · rw [he] at h
    cases h

theorem State.drawSprite_frame {s t : State} {vx vy : Byte} {n : Nat} (h : s.drawSprite vx vy n = .ok t) :
    t = { s with fb := t.fb, V := t.V } := by
  unfold State.drawSprite at h
  split at h <;> cases h
  rfl

/-! ### Two fields a Tick does not read -/

/-- Settles O16: the Tick's own seed is written over the one before it. -/
theorem seedBeforeTickIsUnobservable : Obligations.SeedBeforeTickIsUnobservable := by
  intro cycleCounter s t v h
  obtain ⟨op, i, u, hf, hd, hu, hk, rfl⟩ | ⟨op, hf, hd, rfl⟩ := tick_next_cases h
  · refine ⟨tick_of_execDecoded_next (s := { s with rndSeed := v }) hf (by rw [hd]; exact hu), ?_⟩
    rw [State.endTick_rndSeed, hk.rndSeed_eq, State.setSeed_rndSeed, seedOf_toNat]
  · exact ⟨tick_of_decode_unknown (s := { s with rndSeed := v }) cycleCounter hf hd, seedOf_toNat cycleCounter⟩

/-- `s` with another `lastKey`. -/
def State.withLastKey (k : Fin 16) (s : State) : State := { s with lastKey := k }

theorem State.skipIf_withLastKey (k : Fin 16) (s : State) (b : Bool) :
    (s.withLastKey k).skipIf b = (s.skipIf b).withLastKey k := by
  cases b <;> rfl

theorem State.bumpI_withLastKey (k : Fin 16) (s : State) (x : Reg) :
    (s.withLastKey k).bumpI x = (s.bumpI x).withLastKey k := by
  rw [State.bumpI_eq, State.bumpI_eq]
  rfl

theorem State.popPc_withLastKey (k : Fin 16) (s : State) :
    (s.withLastKey k).popPc = s.popPc.map (State.withLastKey k) := by
  unfold State.popPc
  by_cases h : 0 < s.sp.val
  · rw [if_pos h, if_pos (show 0 < (s.withLastKey k).sp.val from h)]; rfl
  · rw [if_neg h, if_neg (show ¬ 0 < (s.withLastKey k).sp.val from h)]; rfl

theorem State.push_withLastKey (k : Fin 16) (s : State) (v : Word) :
    (s.withLastKey k).push v = (s.push v).map (State.withLastKey k) := by
  unfold State.push
  by_cases h : s.sp.val < 16
  · rw [dif_pos h, dif_pos (show (s.withLastKey k).sp.val < 16 from h)]; rfl
  · rw [dif_neg h, dif_neg (show ¬ (s.withLastKey k).sp.val < 16 from h)]; rfl

theorem State.memWriteAll_withLastKey (k : Fin 16) (ws : List (Nat × Byte)) (s : State) :
    State.memWriteAll ws (s.withLastKey k) = (State.memWriteAll ws s).map (State.withLastKey k) := by
  induction ws generalizing s with
  | nil => rfl
  | cons w ws ih =>
    obtain ⟨a, v⟩ := w
    by_cases ha : a ≤ 0xFFF
    · simp only [State.memWriteAll, State.memWrite_ok _ v ha]
      exact ih (s.writeByte a v)
    · simp only [State.memWriteAll, State.memWrite_error _ v (Nat.lt_of_not_le ha)]
      rfl

theorem State.loadRegsFrom_withLastKey (k : Fin 16) (base : Nat) (rs : List Reg) (s : State) :
    State.loadRegsFrom base rs (s.withLastKey k) = (State.loadRegsFrom base rs s).map (State.withLastKey k) := by
  induction rs generalizing s with
  | nil => rfl
  | cons i rs ih =>
    by_cases hi : base + i.val ≤ 0xFFF
    · simp only [State.loadRegsFrom, State.memRead_ok _ hi]
      exact ih (s.setV i (s.readByte (base + i.val)))
    · simp only [State.loadRegsFrom, State.memRead_error _ (Nat.lt_of_not_le hi)]
      rfl

theorem State.drawRows_withLastKey (k : Fin 16) (s : State) (vx vy : Byte) (rows : List Nat) (c : Canvas) :
    (s.withLastKey k).drawRows vx vy rows c = s.drawRows vx vy rows c := by
  induction rows generalizing c with
  | nil => rfl
  | cons row rows ih =>
    have hread : (s.withLastKey k).memRead ((s.withLastKey k).effAddr row) = s.memRead (s.effAddr row) := rfl
    simp only [State.drawRows, hread, ih]

theorem State.drawSprite_withLastKey (k : Fin 16) (s : State) (vx vy : Byte) (n : Nat) :
    (s.withLastKey k).drawSprite vx vy n = (s.drawSprite vx vy n).map (State.withLastKey k) := by
  have hrows : (s.withLastKey k).drawRows vx vy (List.range n) ⟨(s.withLastKey k).fb, false⟩ =
      s.drawRows vx vy (List.range n) ⟨s.fb, false⟩ := s.drawRows_withLastKey k vx vy (List.range n) ⟨s.fb, false⟩
  unfold State.drawSprite
  rw [hrows]
  cases s.drawRows vx vy (List.range n) ⟨s.fb, false⟩ <;> rfl

/-- An operation that commutes with an update of the state ends in the updated state. -/
theorem finish_map_next {e e' : Except FaultKind State} {f : State → State} {t : State} (he : e' = e.map f)
    (h : finish e = .next t) : finish e' = .next (f t) := by
  rw [finish_eq_next] at h ⊢
  rw [he, h]
  rfl

/-- With no press pending no instruction reads `lastKey`, and none writes it: FX0A is the one that could (R35, R224). -/
theorem exec_withLastKey {i : Instr} {s t : State} (k : Fin 16) (hkey : s.keyPressedThisTick = false)
    (h : exec i s = .next t) : exec i (s.withLastKey k) = .next (t.withLastKey k) := by
  cases i with
  | ret => exact finish_map_next (s.popPc_withLastKey k) h
  | call nnn =>
    rw [exec_call] at h ⊢
    refine finish_map_next ?_ h
    rw [show (s.withLastKey k).pc = s.pc from rfl, s.push_withLastKey k]
    cases s.push s.pc <;> rfl
  | drw x y n => exact finish_map_next (s.drawSprite_withLastKey k _ _ _) h
  | ldB x => exact finish_map_next (s.memWriteAll_withLastKey k (s.bcdWrites x)) h
  | storeRegs x =>
    rw [exec_storeRegs] at h ⊢
    refine finish_map_next ?_ h
    rw [show (s.withLastKey k).storeWrites x = s.storeWrites x from rfl, s.memWriteAll_withLastKey k]
    cases State.memWriteAll (s.storeWrites x) s
    · rfl
    · exact congrArg Except.ok (State.bumpI_withLastKey k _ x)
  | loadRegs x =>
    rw [exec_loadRegs] at h ⊢
    refine finish_map_next ?_ h
    rw [show (s.withLastKey k).effAddr 0 = s.effAddr 0 from rfl, s.loadRegsFrom_withLastKey k]
    cases State.loadRegsFrom (s.effAddr 0) (regsThrough x) s
    · rfl
    · exact congrArg Except.ok (State.bumpI_withLastKey k _ x)
  | ldVxK x =>
    rw [exec_ldVxK_of_not_pressed x hkey] at h
    cases h
    exact exec_ldVxK_of_not_pressed x hkey
  | seImm _ _ | sneImm _ _ | seReg _ _ | sneReg _ _ | skp _ | sknp _ =>
    cases h
    exact congrArg Host.Outcome.next (State.skipIf_withLastKey k s _)
  | _ =>
    cases h
    rfl

/-- Settles O17: the execute step commutes with a change of `lastKey`, and so does the end of the Tick. -/
theorem lastKeyIsUnobservableWithoutPress : Obligations.LastKeyIsUnobservableWithoutPress := by
  intro cycleCounter s t k hkey h
  obtain ⟨op, i, u, hf, hd, hu, -, rfl⟩ | ⟨op, hf, hd, rfl⟩ := tick_next_cases h
  · refine tick_of_execDecoded_next (s := s.withLastKey k) (t := u.withLastKey k) hf ?_
    rw [hd]
    exact exec_withLastKey (s := s.setSeed (seedOf cycleCounter)) k hkey hu
  · have htick := tick_of_decode_unknown (s := s.withLastKey k) cycleCounter hf hd
    exact htick

/-! ### Where pc lands -/

theorem State.skipIf_pc_add_two (s : State) (b : Bool) :
    (s.skipIf b).pc + 2 = if b then s.pc + 4 else s.pc + 2 := by
  cases b
  · rfl
  · exact BitVec.add_assoc s.pc 2 2

/-- Each instruction leaves pc 2 below the table's value, which the shared advance then adds (10_state.md R25). -/
theorem exec_next_pc {i : Instr} {s t : State} (h : exec i s = .next t) : t.pc + 2 = pcAfterTick i s := by
  cases i with
  | ret =>
    obtain ⟨u, hu, -, -, hpc, -⟩ | ⟨he, -⟩ := s.popPc_cases
    · rw [exec_ret, hu] at h
      cases h
      rw [pcAfterTick, hpc, Option.getD_some]
    · rw [exec_ret, he] at h
      cases h
  | call nnn =>
    rw [exec_call, finish_eq_next, map_eq_ok_iff] at h
    obtain ⟨u, -, rfl⟩ := h
    exact u.jumpTo_pc_add_two _
  | drw x y n =>
    rw [exec_drw, finish_eq_next] at h
    rw [State.drawSprite_frame h]
    rfl
  | ldB x =>
    rw [exec_ldB, finish_eq_next] at h
    rw [State.memWriteAll_frame h]
    rfl
  | storeRegs x =>
    rw [exec_storeRegs, finish_eq_next, map_eq_ok_iff] at h
    obtain ⟨u, hu, rfl⟩ := h
    rw [State.bumpI_eq, State.memWriteAll_frame hu]
    rfl
  | loadRegs x =>
    rw [exec_loadRegs, finish_eq_next, map_eq_ok_iff] at h
    obtain ⟨u, hu, rfl⟩ := h
    rw [State.bumpI_eq, State.loadRegsFrom_frame hu]
    rfl
  | ldVxK x =>
    cases h
    rw [pcAfterTick]
    split
    · rfl
    · exact BitVec.sub_add_cancel s.pc 2
  | jp _ | jpOff _ _ =>
    cases h
    exact s.jumpTo_pc_add_two _
  | seImm _ _ | sneImm _ _ | seReg _ _ | sneReg _ _ | skp _ | sknp _ =>
    cases h
    refine (s.skipIf_pc_add_two _).trans ?_
    simp [pcAfterTick, State.keyState]
  | _ =>
    cases h
    rfl

/-- The table does not read the seed. -/
theorem pcAfterTick_setSeed (i : Instr) (s : State) (v : Byte) : pcAfterTick i (s.setSeed v) = pcAfterTick i s := by
  cases i <;> rfl

/-- Settles O12: the table's value of the instruction that ran, from the state with the seed stored. -/
theorem pcAfterTickFollowsTable : Obligations.PcAfterTickFollowsTable := by
  intro cycleCounter s t op i hf hd h
  obtain ⟨op', j, u, hf', hd', hu, -, rfl⟩ | ⟨op', hf', hd', -⟩ := tick_next_cases h
  · rw [hf] at hf'
    cases hf'
    rw [hd] at hd'
    cases hd'
    rw [State.endTick_pc, exec_next_pc hu, pcAfterTick_setSeed]
  · rw [hf] at hf'
    cases hf'
    rw [hd] at hd'
    cases hd'

/-! ### Why a Tick faults -/

/-- The effective addresses an instruction reads or writes (60_exceptions.md R251). -/
def UsesAddress (i : Instr) (s : State) (a : Nat) : Prop :=
  (∃ x y n, i = .drw x y n ∧ ∃ k, k < n.val ∧ a = s.effAddr k) ∨
  (∃ x, i = .ldB x ∧ ∃ k, k ≤ 2 ∧ a = s.effAddr k) ∨
  (∃ x, i = .storeRegs x ∧ ∃ k, k ≤ x.val ∧ a = s.effAddr k) ∨
  (∃ x, i = .loadRegs x ∧ ∃ k, k ≤ x.val ∧ a = s.effAddr k)

/-- What holds of the instruction and the state when the execute step raises a fault: R251's row of that fault. -/
def FaultCause (i : Instr) (s : State) : FaultKind → Prop
  | .fetchOutOfRange _ => False
  | .memoryOutOfRange a => 0xFFF < a ∧ UsesAddress i s a
  | .framebufferOutOfRange p => 2047 < p ∧ ∃ x y n, i = .drw x y n ∧ ∃ row col, row < n.val ∧ col < 8 ∧
      p = pixelIndex (s.getV x) (s.getV y) row col
  | .stackOverflow => s.sp.val = 16 ∧ ∃ nnn, i = .call nnn
  | .stackUnderflow => s.sp.val = 0 ∧ i = .ret

theorem drawSprite_fault_cause {s : State} {x y : Reg} {n : Fin 16} {k : FaultKind}
    (h : s.drawSprite (s.getV x) (s.getV y) n.val = .error k) : FaultCause (.drw x y n) s k := by
  unfold State.drawSprite at h
  obtain ⟨-, c, hc⟩ | ⟨row, hrow, hlt, he⟩ | ⟨row, hrow, col, hcol, -, hlt, he⟩ :=
    s.drawRows_cases (s.getV x) (s.getV y) (List.range n.val) ⟨s.fb, false⟩
  · rw [hc] at h
    cases h
  · rw [he] at h
    cases h
    exact ⟨hlt, .inl ⟨x, y, n, rfl, row, List.mem_range.mp hrow, rfl⟩⟩
  · rw [he] at h
    cases h
    exact ⟨hlt, x, y, n, rfl, row, col, List.mem_range.mp hrow, hcol, rfl⟩

theorem memWriteAll_error_mem {ws : List (Nat × Byte)} {s : State} {k : FaultKind}
    (h : State.memWriteAll ws s = .error k) : ∃ w ∈ ws, 0xFFF < w.1 ∧ k = .memoryOutOfRange w.1 := by
  obtain ⟨-, t, ht⟩ | ⟨w, hw, hlt, he⟩ := State.memWriteAll_cases ws s
  · rw [ht] at h
    cases h
  · rw [he] at h
    cases h
    exact ⟨w, hw, hlt, rfl⟩

theorem bcdWrites_address {s : State} {x : Reg} {w : Nat × Byte} (h : w ∈ s.bcdWrites x) :
    ∃ k, k ≤ 2 ∧ w.1 = s.effAddr k := by
  simp only [State.bcdWrites, List.mem_cons, List.not_mem_nil, or_false] at h
  obtain rfl | rfl | rfl := h
  · exact ⟨0, by decide, rfl⟩
  · exact ⟨1, by decide, rfl⟩
  · exact ⟨2, by decide, rfl⟩

theorem storeWrites_address {s : State} {x : Reg} {w : Nat × Byte} (h : w ∈ s.storeWrites x) :
    ∃ i : Reg, i.val ≤ x.val ∧ w = (s.effAddr i.val, s.getV i) := by
  obtain ⟨i, hi, rfl⟩ := List.mem_map.mp h
  exact ⟨i, (mem_regsThrough x i).mp hi, rfl⟩

/-- Every fault an execute step raises has its listed cause. -/
theorem exec_fault_cause {i : Instr} {s : State} {k : FaultKind} (h : exec i s = .fault (.raised k)) :
    FaultCause i s k := by
  cases i with
  | ret =>
    rw [exec_ret, finish_eq_raised] at h
    obtain ⟨t, ht, -⟩ | ⟨he, hsp⟩ := s.popPc_cases
    · rw [ht] at h
      cases h
    · rw [he] at h
      cases h
      exact ⟨hsp, rfl⟩
  | call nnn =>
    rw [exec_call, finish_eq_raised, map_eq_error_iff] at h
    obtain ⟨t, ht, -⟩ | ⟨he, hsp⟩ := s.push_cases s.pc
    · rw [ht] at h
      cases h
    · rw [he] at h
      cases h
      exact ⟨hsp, nnn, rfl⟩
  | drw x y n =>
    rw [exec_drw, finish_eq_raised] at h
    exact drawSprite_fault_cause h
  | ldB x =>
    rw [exec_ldB, finish_eq_raised] at h
    obtain ⟨w, hw, hlt, rfl⟩ := memWriteAll_error_mem h
    exact ⟨hlt, .inr (.inl ⟨x, rfl, bcdWrites_address hw⟩)⟩
  | storeRegs x =>
    rw [exec_storeRegs, finish_eq_raised, map_eq_error_iff] at h
    obtain ⟨w, hw, hlt, rfl⟩ := memWriteAll_error_mem h
    obtain ⟨i, hi, rfl⟩ := storeWrites_address hw
    exact ⟨hlt, .inr (.inr (.inl ⟨x, rfl, i.val, hi, rfl⟩))⟩
  | loadRegs x =>
    rw [exec_loadRegs, finish_eq_raised, map_eq_error_iff] at h
    obtain ⟨-, t, ht⟩ | ⟨r, hr, hlt, he⟩ := State.loadRegsFrom_cases (s.effAddr 0) (regsThrough x) s
    · rw [ht] at h
      cases h
    · rw [he] at h
      cases h
      exact ⟨hlt, .inr (.inr (.inr ⟨x, rfl, r.val, (mem_regsThrough x r).mp hr, rfl⟩))⟩
  | _ => cases h

/-- Settles O11: a Tick's fault is the fetch's, or the execute step's with its cause; the seed stored before is in
neither. -/
theorem faultsHaveListedCauses : Obligations.FaultsHaveListedCauses := by
  intro cycleCounter s f h
  obtain ⟨hpc, htick⟩ | ⟨_, _, _, -, -, -, -, htick⟩ | ⟨op, i, k, hf, hd, hk, htick⟩ | ⟨_, -, -, htick⟩ :=
    tick_cases cycleCounter s <;> rw [htick] at h <;> cases h
  · exact .inl ⟨hpc, rfl⟩
  · refine .inr ⟨op, i, hf, hd, ?_⟩
    have hcause := exec_fault_cause hk
    cases k with
    | fetchOutOfRange pc => exact hcause.elim
    | memoryOutOfRange a => exact .inl ⟨a, hcause.1, rfl, hcause.2⟩
    | framebufferOutOfRange p => exact .inr (.inl ⟨p, hcause.1, rfl, hcause.2⟩)
    | stackOverflow => exact .inr (.inr (.inl ⟨hcause.1, rfl, hcause.2⟩))
    | stackUnderflow => exact .inr (.inr (.inr ⟨hcause.1, rfl, hcause.2⟩))

end Sys2Proof.Machine

/-! ## The host's actions (60_exceptions.md sections 5 and 7, 70_reset_and_hazards.md sections 2 to 4)

SetKey, Reset and the two loads each get what they change and what they keep said once; the invariant, the round trip of
a loaded image and the run of an empty machine are then read off those facts and off `tick_next_cases`. -/

namespace Sys2Proof.Machine

/-! ### SetKey -/

theorem State.setKey_of_out_of_range (s : State) {key : Int} (pressed : Bool) (h : key < 0 ∨ 15 < key) :
    s.setKey key pressed = s :=
  dif_neg (by omega)

theorem State.setKey_of_val (s : State) (k : Fin 16) (pressed : Bool) :
    s.setKey (k.val : Int) pressed = s.setKeyAt k pressed :=
  dif_pos (show (0 : Int) ≤ k.val ∧ (k.val : Int) < 16 by omega)

theorem State.setKeyAt_of_press {s : State} {k : Fin 16} {pressed : Bool}
    (h : pressed = true ∧ s.key[k.val] = false) : s.setKeyAt k pressed =
      { s with key := s.key.set k.val pressed, keyPressedThisTick := true, lastKey := k } :=
  if_pos (by simp [h])

theorem State.setKeyAt_of_no_press {s : State} {k : Fin 16} {pressed : Bool}
    (h : ¬(pressed = true ∧ s.key[k.val] = false)) :
    s.setKeyAt k pressed = { s with key := s.key.set k.val pressed } :=
  if_neg (by simpa using h)

theorem State.setKeyAt_key (s : State) (k : Fin 16) (pressed : Bool) :
    (s.setKeyAt k pressed).key = s.key.set k.val pressed := by
  by_cases h : pressed = true ∧ s.key[k.val] = false
  · rw [State.setKeyAt_of_press h]
  · rw [State.setKeyAt_of_no_press h]

/-- SetKey writes the key states and the latch alone. -/
theorem State.setKeyAt_frame (s : State) (k : Fin 16) (pressed : Bool) : s.setKeyAt k pressed =
    { s with key := (s.setKeyAt k pressed).key, keyPressedThisTick := (s.setKeyAt k pressed).keyPressedThisTick,
             lastKey := (s.setKeyAt k pressed).lastKey } := by
  by_cases h : pressed = true ∧ s.key[k.val] = false
  · rw [State.setKeyAt_of_press h]
  · rw [State.setKeyAt_of_no_press h]

theorem State.setKey_frame (s : State) (key : Int) (pressed : Bool) : s.setKey key pressed =
    { s with key := (s.setKey key pressed).key, keyPressedThisTick := (s.setKey key pressed).keyPressedThisTick,
             lastKey := (s.setKey key pressed).lastKey } := by
  unfold State.setKey
  split
  · exact State.setKeyAt_frame s _ pressed
  · rfl

/-- Settles O48: out of range nothing, and in range the two cases of a press transition. -/
theorem setKeyRecordsPressTransition : Obligations.SetKeyRecordsPressTransition := by
  intro s key pressed
  refine ⟨fun hout => congrArg Host.Outcome.next (s.setKey_of_out_of_range pressed hout), ?_⟩
  rintro k rfl
  refine ⟨s.setKeyAt k pressed, congrArg Host.Outcome.next (s.setKey_of_val k pressed), ?_, fun j hj => ?_,
    fun hpress => ?_, fun hno => ?_, s.setKeyAt_frame k pressed⟩
  · simp only [s.setKeyAt_key, Vector.getElem_set_self]
  · simp only [s.setKeyAt_key]
    exact Vector.getElem_set_ne _ _ fun h => hj (Fin.ext h.symm)
  · rw [State.setKeyAt_of_press hpress]
    exact ⟨rfl, rfl⟩
  · rw [State.setKeyAt_of_no_press hno]
    exact ⟨rfl, rfl⟩

/-- Settles O49: each setter's update is the one write of its flag, and SetLogger's is none. -/
theorem modeSettersWriteTheirFlagAlone : Obligations.ModeSettersWriteTheirFlagAlone :=
  fun _ _ => ⟨rfl, rfl, rfl, rfl⟩

/-! ### Reset -/

theorem keptByReset_of_lt {a : Nat} (h : a < 0x050) : keptByReset a = true := by
  simp [keptByReset, h]

theorem keptByReset_of_aboveFont {a : Nat} (h : 0x0A0 ≤ a) (h' : a < 0x200) : keptByReset a = true := by
  simp [keptByReset, h, h']

theorem inWorkRam_of_mem {a : Nat} (h : 0x200 ≤ a) (h' : a ≤ 0xFFF) : inWorkRam a = true := by
  simp [inWorkRam, h, h']

/-- Reset writes 0x050-0x09F and 0x200 on, and nothing else. -/
theorem keptByReset_eq_false {a : Nat} (h : (0x050 ≤ a ∧ a < 0x0A0) ∨ 0x200 ≤ a) : keptByReset a = false := by
  simp only [keptByReset, Bool.or_eq_false_iff, Bool.and_eq_false_iff, decide_eq_false_iff_not]
  omega

theorem inWorkRam_eq_false {a : Nat} (h : a < 0x200) : inWorkRam a = false := by
  simp only [inWorkRam, Bool.and_eq_false_iff, decide_eq_false_iff_not]
  omega

theorem keptByReset_of_inWorkRam {a : Nat} (h : inWorkRam a = true) : keptByReset a = false := by
  simp only [inWorkRam, Bool.and_eq_true, decide_eq_true_eq] at h
  exact keptByReset_eq_false (.inr h.1)

theorem State.readByte_hostReset_of_kept (s : State) {a : Nat} (h : keptByReset a = true) :
    s.hostReset.readByte a = s.readByte a := by
  rw [State.readByte_hostReset, if_pos h]

theorem State.readByte_hostReset_of_workRam (s : State) {a : Nat} (h : 0x200 ≤ a) (h' : a ≤ 0xFFF) :
    s.hostReset.readByte a = s.romCopy.load 0 a := by
  have hram := inWorkRam_of_mem h h'
  rw [State.readByte_hostReset, keptByReset_of_inWorkRam hram, if_neg Bool.false_ne_true, if_pos hram]

theorem State.readByte_hostReset_of_font (s : State) (j : Fin 80) :
    s.hostReset.readByte (0x050 + j.val) = s.config.fontSet[j.val] := by
  have hkept : keptByReset (0x050 + j.val) = false := keptByReset_eq_false (by omega)
  have hram : inWorkRam (0x050 + j.val) = false := inWorkRam_eq_false (by omega)
  rw [State.readByte_hostReset, hkept, hram, if_neg Bool.false_ne_true, if_neg Bool.false_ne_true, unlisted,
    if_neg (by omega), if_neg (by omega), if_pos (by omega)]
  simp

theorem State.clearScreen_pixel (s : State) (p : Nat) : s.clearScreen.pixel p = 0 := by
  rw [State.pixel, State.clearScreen_fb, Vector.getElem?_replicate]
  split <;> rfl

/-- A second Reset filters what the first left, and drops nothing. -/
theorem resetMemory_resetMemory (mem rom : Memory) : resetMemory (resetMemory mem rom) rom = resetMemory mem rom := by
  have hdisjoint : ∀ cell : Host.Cell, (keptByReset cell.1 && inWorkRam cell.1) = false := fun cell => by
    cases h : inWorkRam cell.1
    · exact Bool.and_false _
    · rw [keptByReset_of_inWorkRam h]; rfl
  simp [resetMemory, List.filter_append, List.filter_filter, hdisjoint]

theorem act_reset (s : State) : act .reset s = .next s.hostReset := rfl

/-- Settles O51: Reset's record update read field by field, and memory by its four address ranges. -/
theorem resetActionValues : Obligations.ResetActionValues := by
  intro s
  refine ⟨s.hostReset, act_reset s, fun a h => s.readByte_hostReset_of_kept (keptByReset_of_lt h),
    s.readByte_hostReset_of_font, fun a h h' => s.readByte_hostReset_of_kept (keptByReset_of_aboveFont h h'),
    fun a => s.readByte_hostReset_of_workRam, fun r => ?_, rfl, rfl, fun k => ?_, rfl, fun k => ?_, rfl, rfl,
    fun p => ?_, fun hclear => ?_, fun hkeep => ?_, rfl, rfl, rfl, rfl, rfl, rfl, rfl, rfl, rfl⟩
  · simp [State.getV]
  · simp
  · simp
  · exact s.clearScreen_pixel p
  · simp [hclear]
  · simp [hkeep]

/-- Settles O52: the second Reset writes the values the first wrote, and memory is the one part that needs an argument. -/
theorem resetIsIdempotent : Obligations.ResetIsIdempotent := by
  intro s
  simp only [State.hostReset, resetMemory_resetMemory]
  split <;> rfl

theorem unlisted_of_ge (c : Config) {a : Nat} (h : 0x200 ≤ a) : unlisted c a = 0 := if_pos h

/-- Settles O53: the state the model starts from, field by field. -/
theorem initialStateIsReset : Obligations.InitialStateIsReset := by
  refine ⟨rfl, rfl, rfl, rfl, fun r => ?_, rfl, fun a ha => unlisted_of_ge bootConfig ha⟩
  simp [State.getV, State.reset]

/-! ### Loading -/

theorem acceptedImage_of_fits {bytes : List Byte} (h0 : bytes.length ≠ 0) (h : bytes.length ≤ 3584) :
    acceptedImage (some bytes) = some bytes :=
  if_neg (by simp only [maxRomSize]; omega)

theorem acceptedImage_of_rejected {bytes : List Byte} (h : bytes.length = 0 ∨ 3584 < bytes.length) :
    acceptedImage (some bytes) = none :=
  if_pos h

theorem State.loadROM_of_fits (s : State) {bytes : List Byte} (h0 : bytes.length ≠ 0) (h : bytes.length ≤ 3584) :
    s.loadROM (some bytes) = (true, { s with romCopy := copyImage s.romCopy 0x200 bytes }) := by
  rw [State.loadROM, acceptedImage_of_fits h0 h]

theorem State.loadROM_of_rejected (s : State) {bytes : List Byte} (h : bytes.length = 0 ∨ 3584 < bytes.length) :
    s.loadROM (some bytes) = (false, s) := by
  rw [State.loadROM, acceptedImage_of_rejected h]

/-- A load that succeeds ends with the image in the ROM copy and its report in the trace. -/
theorem act_loadROM_of_fits (s : State) {bytes : List Byte} (h0 : bytes.length ≠ 0) (h : bytes.length ≤ 3584) :
    act (.loadROM (some bytes)) s = .next { s with
      romCopy := copyImage s.romCopy 0x200 bytes
      outputs := s.outputs ++ [.loadResult true] } := by
  simp only [act, s.loadROM_of_fits h0 h]
  rfl

theorem copyImage_load_inside (rom : Memory) (a : Nat) {bytes : List Byte} {j : Nat} (h : j < bytes.length) :
    (copyImage rom a bytes).load 0 (a + j) = bytes[j] := by
  rw [copyImage_load, if_pos (by omega), Nat.add_sub_cancel_left, List.getElem?_eq_getElem h, Option.getD_some]

theorem copyImage_load_outside (rom : Memory) {a b : Nat} {bytes : List Byte} (h : b < a ∨ a + bytes.length ≤ b) :
    (copyImage rom a bytes).load 0 b = rom.load 0 b := by
  rw [copyImage_load, if_neg (by omega)]

/-- Settles O54: the ROM copy after the image is copied, inside the image and outside it. -/
theorem loadRomCopiesImageAlone : Obligations.LoadRomCopiesImageAlone := fun s _ h0 h =>
  ⟨_, act_loadROM_of_fits s h0 h, fun _ hj => copyImage_load_inside _ _ hj, fun _ ha => copyImage_load_outside _ ha, rfl⟩

/-- Settles O55: the three images LoadROM does not accept leave the state as it is and report it. -/
theorem failedLoadChangesNothing : Obligations.FailedLoadChangesNothing := by
  rintro s image (rfl | ⟨bytes, rfl, h⟩)
  · rfl
  · simp only [act, s.loadROM_of_rejected h]
    rfl

theorem State.loadROMFromFile_some (s : State) (bytes : List Byte) : s.loadROMFromFile (some bytes) =
    ((s.loadROM (some (bytes.take 16384))).1, (s.loadROM (some (bytes.take 16384))).2.hostReset) := rfl

/-- Settles O56: Reset follows the load in every case, and reading 16384 bytes cuts no file that LoadROM accepts. -/
theorem loadFromFileAlwaysResets : Obligations.LoadFromFileAlwaysResets := by
  refine fun s => ⟨rfl, fun bytes => ⟨fun ⟨h0, h⟩ => ⟨_, act_loadROM_of_fits s h0 h, ?_⟩, fun hbad => ?_⟩⟩
  · have htake : bytes.take 16384 = bytes := List.take_of_length_le (by omega)
    simp only [act, s.loadROMFromFile_some, htake, s.loadROM_of_fits h0 h]
    rfl
  · have hbad' : (bytes.take 16384).length = 0 ∨ 3584 < (bytes.take 16384).length := by
      rw [List.length_take]; omega
    simp only [act, s.loadROMFromFile_some, s.loadROM_of_rejected hbad']
    rfl

/-! ### The invariant -/

/-- Settles O14: nothing is listed and every pixel is 0. -/
theorem resetStateMeetsInvariant : Obligations.ResetStateMeetsInvariant := by
  refine ⟨⟨List.Pairwise.nil, nofun⟩, ⟨List.Pairwise.nil, nofun⟩, fun v hv => .inl ?_⟩
  exact (Vector.mem_replicate.mp hv).2

theorem ExecKeeps.inv {s t : State} (hk : ExecKeeps s t) (h : s.Inv) : t.Inv := by
  obtain ⟨hmem, hrom, hfb⟩ := h
  refine ⟨?_, ?_, hk.fb hfb⟩
  · rw [hk.config_eq]
    exact hk.mem hmem
  · rw [hk.romCopy_eq]
    exact hrom

theorem State.Inv.endTick {s : State} (h : s.Inv) : s.endTick.Inv :=
  h.of_fields s.endTick_mem s.endTick_romCopy s.endTick_fb s.endTick_config

theorem State.Inv.emit {s : State} (h : s.Inv) (o : Output) : (s.emit o).Inv :=
  h.of_fields (s.emit_mem o) (s.emit_romCopy o) (s.emit_fb o) (s.emit_config o)

theorem State.Inv.setSeed {s : State} (h : s.Inv) (v : Byte) : (s.setSeed v).Inv :=
  h.of_fields (s.setSeed_mem v) (s.setSeed_romCopy v) (s.setSeed_fb v) (s.setSeed_config v)

theorem tick_keeps_inv {cycleCounter : Nat} {s t : State} (h : s.Inv) (htick : tick cycleCounter s = .next t) :
    t.Inv := by
  have hseed := h.setSeed (seedOf cycleCounter)
  obtain ⟨op, i, u, -, -, -, hk, rfl⟩ | ⟨op, -, -, rfl⟩ := tick_next_cases htick
  · exact (hk.inv hseed).endTick
  · exact (hseed.emit _).endTick

theorem hostReset_keeps_inv {s : State} (h : s.Inv) : s.hostReset.Inv :=
  ⟨resetMemory_wf s.config s.mem s.romCopy h.1 h.2.1, h.2.1, fbBinary_clear s⟩

theorem loadROM_keeps_inv {s : State} (h : s.Inv) (image : Option (List Byte)) : (s.loadROM image).2.Inv := by
  cases image with
  | none => exact h
  | some bytes =>
    by_cases hbad : bytes.length = 0 ∨ 3584 < bytes.length
    · rw [s.loadROM_of_rejected hbad]
      exact h
    · obtain ⟨h0, hle⟩ : bytes.length ≠ 0 ∧ bytes.length ≤ 3584 := by omega
      obtain ⟨hmem, hrom, hfb⟩ := h
      rw [s.loadROM_of_fits h0 hle]
      exact ⟨hmem, copyImage_romWf bytes s.romCopy 0x200 (Nat.le_refl _) (by omega) hrom, hfb⟩

theorem loadROMFromFile_keeps_inv {s : State} (h : s.Inv) (file : Option (List Byte)) :
    (s.loadROMFromFile file).2.Inv := by
  cases file with
  | none => exact hostReset_keeps_inv h
  | some bytes => exact hostReset_keeps_inv (loadROM_keeps_inv h _)

theorem act_keeps_inv {a : HostAction} {s t : State} (h : s.Inv) (hact : act a s = .next t) : t.Inv := by
  cases a with
  | tick cycleCounter => exact tick_keeps_inv h hact
  | setKey key pressed =>
    cases hact
    rw [s.setKey_frame]
    exact h.of_fields rfl rfl rfl rfl
  | loadROM image =>
    cases hact
    exact (loadROM_keeps_inv h image).emit _
  | loadROMFromFile file =>
    cases hact
    exact (loadROMFromFile_keeps_inv h file).emit _
  | reset =>
    cases hact
    exact hostReset_keeps_inv h
  | setShiftUsesVY b | setJumpAddsVX b | setLoadStoreIncrementsI b | setLogger =>
    cases hact
    exact h.of_fields rfl rfl rfl rfl

/-- Settles O13: a step is a Tick or a host action, and each keeps the invariant. -/
theorem stepKeepsInvariant : Obligations.StepKeepsInvariant := by
  intro s t h hstep
  obtain ⟨-, heq⟩ | ⟨a, rest, -, heq⟩ := step_cases s <;> rw [heq] at hstep
  · exact tick_keeps_inv (s := { s with freeIndex := s.freeIndex + 1 }) (h.of_fields rfl rfl rfl rfl) hstep
  · exact act_keeps_inv (s := { s with host := rest }) (h.of_fields rfl rfl rfl rfl) hstep

/-! ### The round trip of a loaded image -/

theorem act_romCopy_of_not_isLoad {a : HostAction} {s t : State} (ha : a.isLoad = false) (hact : act a s = .next t) :
    t.romCopy = s.romCopy := by
  cases a with
  | tick cycleCounter => rw [tick_frame hact]
  | setKey key pressed =>
    cases hact
    rw [s.setKey_frame]
  | loadROM _ | loadROMFromFile _ => cases ha
  | reset | setShiftUsesVY _ | setJumpAddsVX _ | setLoadStoreIncrementsI _ | setLogger =>
    cases hact
    rfl

/-- Only a load writes the ROM copy (10_state.md R39). -/
theorem step_romCopy_of_noLoad {s t : State} (hload : s.loadsNext = false) (hstep : step s = .next t) :
    t.romCopy = s.romCopy := by
  obtain ⟨-, heq⟩ | ⟨a, rest, hhost, heq⟩ := step_cases s <;> rw [heq] at hstep
  · rw [tick_frame hstep]
  · have ha : a.isLoad = false := by simpa only [State.loadsNext, hhost] using hload
    exact act_romCopy_of_not_isLoad (s := { s with host := rest }) ha hstep

theorem reachesWithoutLoad_romCopy {s t : State} (h : ReachesWithoutLoad s t) : t.romCopy = s.romCopy := by
  induction h with
  | refl s => rfl
  | step noLoad first _ ih => rw [ih, step_romCopy_of_noLoad noLoad first]

theorem State.romHolds_congr {s t : State} {bytes : List Byte} (hrom : t.romCopy = s.romCopy) (h : s.romHolds bytes) :
    t.romHolds bytes := by
  unfold State.romHolds
  rw [hrom]
  exact h

/-- Settles O57: a load puts the bytes in the ROM copy, no other step writes it, and Reset copies it to memory. -/
theorem loadedBytesSurviveEveryReset : Obligations.LoadedBytesSurviveEveryReset := by
  refine ⟨fun s bytes h0 h => ⟨_, act_loadROM_of_fits s h0 h, fun j hj => copyImage_load_inside _ _ hj⟩,
    fun s t bytes hrom hload hstep => State.romHolds_congr (step_romCopy_of_noLoad hload hstep) hrom,
    fun s t bytes hrom hreach => State.romHolds_congr (reachesWithoutLoad_romCopy hreach) hrom,
    fun s bytes hlen hrom => ⟨s.hostReset, act_reset s, hrom, fun j hj => ?_⟩⟩
  rw [s.readByte_hostReset_of_workRam (by omega) (by omega), hrom j hj]

/-! ### The run of an empty machine -/

/-- Work RAM and loaded program all zero. -/
def State.WorkRamZero (s : State) : Prop := ∀ a, 0x200 ≤ a → a ≤ 0xFFF → s.readByte a = 0

theorem hostReset_workRamZero {s : State} (h : s.romCopy = []) : s.hostReset.WorkRamZero := by
  intro a ha ha'
  rw [s.readByte_hostReset_of_workRam ha ha', h]
  rfl

/-- A Tick inside zero work RAM is the no-op advance of the unknown opcode 0x0000. -/
theorem State.WorkRamZero.tick_next {s : State} (h : s.WorkRamZero) (hlo : 0x200 ≤ s.pc.toNat)
    (hhi : s.pc.toNat ≤ 0xFFE) (cycleCounter : Nat) :
    ∃ u, tick cycleCounter s = .next u ∧ u.WorkRamZero ∧ u.pc.toNat = s.pc.toNat + 2 ∧
      u.outputs = s.outputs ++ [.logUnknownOpcode 0x0000] ∧
      u = { s with pc := u.pc, DT := u.DT, ST := u.ST, keyPressedThisTick := u.keyPressedThisTick,
                   rndSeed := u.rndSeed, outputs := u.outputs } := by
  have hfetch : s.fetch = .ok 0x0000 := by
    rw [State.fetch_of_pc_le hhi, h _ hlo (by omega), h _ (by omega) (by omega)]
    rfl
  refine ⟨_, unknownOpcodeIsNoOpAdvance cycleCounter s 0x0000 hfetch (by decide), h, ?_, rfl, rfl⟩
  exact BitVec.toNat_add_of_lt (show s.pc.toNat + 2 < 2 ^ 16 by omega)

/-- Ticks that stay inside zero work RAM advance pc by 2 and log 0x0000 each, and change nothing else that lasts. -/
theorem State.WorkRamZero.ticksTo {s : State} (h : s.WorkRamZero) (cycleCounters : List Nat)
    (hlo : 0x200 ≤ s.pc.toNat) (hhi : s.pc.toNat + 2 * cycleCounters.length ≤ 0x1000) :
    ∃ t, TicksTo s cycleCounters t ∧ t.pc.toNat = s.pc.toNat + 2 * cycleCounters.length ∧
      t.outputs = s.outputs ++ List.replicate cycleCounters.length (.logUnknownOpcode 0x0000) ∧
      t = { s with pc := t.pc, DT := t.DT, ST := t.ST, keyPressedThisTick := t.keyPressedThisTick,
                   rndSeed := t.rndSeed, outputs := t.outputs } := by
  induction cycleCounters generalizing s with
  | nil => exact ⟨s, .nil s, rfl, (List.append_nil _).symm, rfl⟩
  | cons cycleCounter rest ih =>
    rw [List.length_cons] at hhi ⊢
    obtain ⟨u, hfirst, hu, hupc, huout, huframe⟩ := h.tick_next hlo (by omega) cycleCounter
    obtain ⟨t, hrun, htpc, htout, htframe⟩ := ih hu (by omega) (by omega)
    refine ⟨t, .cons hfirst hrun, by omega, ?_, htframe.trans (by rw [huframe])⟩
    rw [htout, huout, List.append_assoc, List.replicate_succ, List.singleton_append]

/-- Settles O58: 1792 Ticks take pc from 0x200 to 0x1000, where the next fetch faults. -/
theorem emptyMachineRunsOffMemory : Obligations.EmptyMachineRunsOffMemory := by
  intro s cycleCounters hrom hlen
  obtain ⟨t, hrun, hpc, hout, hframe⟩ := (hostReset_workRamZero hrom).ticksTo cycleCounters (by simp) (by simp [hlen])
  have hpc : t.pc = 0x1000 := BitVec.eq_of_toNat_eq (by rw [hpc, hlen]; rfl)
  rw [hlen] at hout
  refine ⟨t, hrun, hpc, (congrArg State.V hframe :), (congrArg State.I hframe :), (congrArg State.mem hframe :),
    (congrArg State.fb hframe :), (congrArg State.stack hframe :), (congrArg State.sp hframe :), hout,
    fun cycleCounter => ?_⟩
  rw [tick_of_pc_gt (by rw [hpc]; decide), hpc]

end Sys2Proof.Machine

/-! ## The display (40_display.md) -/

namespace Sys2Proof.Machine

/-- Live memory is read through two fields. -/
theorem sameMemory_of_eq {s t : State} (hmem : t.mem = s.mem) (hconfig : t.config = s.config) : SameMemory s t := by
  intro a
  rw [State.readByte, State.readByte, hmem, hconfig]

/-- Settles O20: the cleared screen. -/
theorem clsClearsEveryPixel : Obligations.ClsClearsEveryPixel :=
  ⟨selects_cls, fun s => ⟨s.clearScreen, rfl, s.clearScreen_pixel, rfl, s.clearScreen_readByte⟩⟩

/-- Settles O21: the closed form of a sprite that fits, with its addresses, indices and bits written out. -/
theorem drwXorsSprite : Obligations.DrwXorsSprite := by
  refine ⟨selects_drw, fun s x y n hfits => ?_⟩
  obtain ⟨t, ht, hframe, hpixel, hflag, hregs⟩ := s.drawSprite_ok (s.getV x) (s.getV y) n.val hfits
  refine ⟨t, by rw [exec_drw, ht, finish], hpixel, hflag, fun r hr => hregs r ?_, hframe, ?_⟩
  · simpa using hr
  · exact sameMemory_of_eq (congrArg State.mem hframe :) (congrArg State.config hframe :)

/-! ### The first bad cell -/

/-- In a rising list everything before an element is below it. -/
theorem exists_split_of_rising {α : Type} [LT α] {l : List α} {a : α} (hl : l.Pairwise (· < ·)) (ha : a ∈ l) :
    ∃ pre post, l = pre ++ a :: post ∧ ∀ b ∈ pre, b < a := by
  obtain ⟨pre, post, rfl⟩ := List.append_of_mem ha
  exact ⟨pre, post, rfl, fun b hb => (List.pairwise_append.mp hl).2.2 b hb a List.mem_cons_self⟩

theorem range_split {n k : Nat} (h : k < n) : ∃ pre post, List.range n = pre ++ k :: post ∧ ∀ j ∈ pre, j < k :=
  exists_split_of_rising List.pairwise_lt_range (List.mem_range.mpr h)

/-- A row whose read is in memory faults at its first cell past the framebuffer. -/
theorem State.drawRows_framebuffer_error (s : State) (vx vy : Byte) {row col : Nat} (post : List Nat) (c : Canvas)
    (hmem : s.effAddr row ≤ 0xFFF) (hcol : col < 8) (hbefore : ∀ k, k < col → pixelIndex vx vy row k < 2048)
    (hbad : 2047 < pixelIndex vx vy row col) :
    s.drawRows vx vy (row :: post) c = .error (.framebufferOutOfRange (pixelIndex vx vy row col)) := by
  obtain ⟨pre, post', hsplit, hpre⟩ := range_split hcol
  have herror := drawColumns_error vx vy row (s.readByte (s.effAddr row)) pre post' col c
    (fun k hk => hbefore k (hpre k hk)) hbad
  simp only [State.drawRows, State.memRead_ok s hmem, hsplit, herror]

/-- Rows that fit hand over to the rows after them. -/
theorem State.drawRows_append_error (s : State) (vx vy : Byte) {pre post : List Nat} {k : FaultKind}
    (hpre : ∀ row ∈ pre, s.rowFits vx vy row) (hpost : ∀ c, s.drawRows vx vy post c = .error k) (c : Canvas) :
    s.drawRows vx vy (pre ++ post) c = .error k := by
  induction pre generalizing c with
  | nil => exact hpost c
  | cons row pre ih =>
    obtain ⟨hmem, hlast⟩ := hpre row List.mem_cons_self
    obtain ⟨c', hc', -⟩ := drawColumns_ok vx vy row (s.readByte (s.effAddr row)) (List.range 8) c List.nodup_range
      fun col hcol => by
        rw [List.mem_range] at hcol
        unfold pixelIndex at hlast ⊢
        omega
    simp only [List.cons_append, State.drawRows, State.memRead_ok s hmem, hc']
    exact ih (fun r hr => hpre r (List.mem_cons_of_mem _ hr)) c'

/-- A draw faults as its first row that does not fit does. -/
theorem exec_drw_fault {s : State} {x y : Reg} {n : Fin 16} {row : Nat} {k : FaultKind} (hrow : row < n.val)
    (hfits : ∀ r, r < row → s.rowFits (s.getV x) (s.getV y) r)
    (hbad : ∀ post c, s.drawRows (s.getV x) (s.getV y) (row :: post) c = .error k) :
    exec (.drw x y n) s = .fault (.raised k) := by
  obtain ⟨pre, post, hsplit, hpre⟩ := range_split hrow
  have herror := s.drawRows_append_error (s.getV x) (s.getV y) (fun r hr => hfits r (hpre r hr)) (hbad post) ⟨s.fb, false⟩
  rw [exec_drw, finish_eq_raised, State.drawSprite, hsplit, herror]

/-- Settles O22: the bad row's read comes before its cells, and its cells in column order. -/
theorem drwFaultsAtFirstBadCell : Obligations.DrwFaultsAtFirstBadCell := by
  intro s x y n row hrow hfits
  constructor
  · intro hmem
    refine exec_drw_fault hrow hfits fun post c => ?_
    simp only [State.drawRows, State.memRead_error s hmem]
  · intro col hcol hmem hbefore hbad
    exact exec_drw_fault hrow hfits fun post c =>
      s.drawRows_framebuffer_error _ _ post c hmem hcol hbefore hbad

/-! ### Two draws -/

theorem pixel_flip_flip (v : Byte) : v ^^^ 1 ^^^ 1 = v := by
  rw [BitVec.xor_assoc, BitVec.xor_self, BitVec.xor_zero]

theorem pixel_flip_eq_one_iff (v : Byte) : v ^^^ 1 = 1 ↔ v = 0 := by
  constructor
  · intro h
    rw [← pixel_flip_flip v, h, BitVec.xor_self]
    rfl
  · rintro rfl
    rfl

/-- The same sprite fits, hits and is read alike in a state that differs in framebuffer and registers alone. -/
theorem State.sprite_congr {s t : State} (hframe : t = { s with fb := t.fb, V := t.V }) :
    (∀ a, t.readByte a = s.readByte a) ∧ ∀ k, t.effAddr k = s.effAddr k := by
  rw [hframe]
  exact ⟨fun _ => rfl, fun _ => rfl⟩

/-- Settles O23: the second draw meets the same cells, each flipped once by the first. -/
theorem drwTwiceRestores : Obligations.DrwTwiceRestores := by
  intro s x y n hx hy hfits
  obtain ⟨t, ht, hframe, htpixel, -, hregs⟩ := s.drawSprite_ok (s.getV x) (s.getV y) n.val hfits
  obtain ⟨hread, haddr⟩ := State.sprite_congr hframe
  have hfits' : ∀ row, row < n.val → t.rowFits (s.getV x) (s.getV y) row := fun row hrow => by
    rw [State.rowFits, haddr]
    exact hfits row hrow
  obtain ⟨u, hu, -, hupixel, huflag, -⟩ := t.drawSprite_ok (s.getV x) (s.getV y) n.val hfits'
  have hhits : ∀ p, t.spriteHits (s.getV x) (s.getV y) n.val p ↔ s.spriteHits (s.getV x) (s.getV y) n.val p :=
    fun p => by simp only [State.spriteHits, hread, haddr]
  have hcollides : t.spriteCollides (s.getV x) (s.getV y) n.val ↔
      ∃ row, row < n.val ∧ ∃ col, col < 8 ∧ spriteBit (s.readByte (s.effAddr row)) col = true ∧
        s.pixel (pixelIndex (s.getV x) (s.getV y) row col) = 0 := by
    simp only [State.spriteCollides, hread, haddr]
    refine exists_congr fun row => and_congr_right fun hrow => exists_congr fun col => and_congr_right fun hcol =>
      and_congr_right fun hbit => ?_
    rw [htpixel, if_pos ⟨row, hrow, col, hcol, rfl, hbit⟩, pixel_flip_eq_one_iff]
  refine ⟨t, u, by rw [exec_drw, ht, finish], ?_, fun p => ?_, ?_, ?_⟩
  · rw [exec_drw, hregs x hx, hregs y hy, hu, finish]
  · simp only [hupixel, htpixel, hhits]
    split
    · exact pixel_flip_flip _
    · rfl
  · rw [huflag]
    split
    · exact .inr rfl
    · exact .inl rfl
  · rw [huflag, ← hcollides]
    split
    case isTrue h => exact iff_of_true rfl h
    case isFalse h => exact iff_of_false (by decide) h

end Sys2Proof.Machine

/-! ## Control flow, arithmetic and memory transfers (41_control_flow.md to 44_keys_timers.md)

The instructions the earlier sections leave: each proof is the row's decoding, the operation's own law, and the value
written. -/

namespace Sys2Proof.Machine

/-! ### The stack -/

/-- Settles O24: the two cases of a pop. -/
theorem retPopsOrUnderflows : Obligations.RetPopsOrUnderflows := by
  refine ⟨selects_ret, fun s => ?_⟩
  obtain ⟨t, ht, hsp, htsp, htpc, hframe⟩ | ⟨he, hsp⟩ := s.popPc_cases
  · refine ⟨fun _ => ⟨t, by rw [exec_ret, ht, finish], htsp, htpc, hframe, ?_⟩, fun h0 => absurd h0 (by omega)⟩
    exact sameMemory_of_eq (congrArg State.mem hframe :) (congrArg State.config hframe :)
  · exact ⟨fun hpos => absurd hsp (by omega), fun _ => by rw [exec_ret, he, finish, raise]⟩

/-- Settles O26: the two cases of a push, and then the jump. -/
theorem callPushesOwnAddressOrOverflows : Obligations.CallPushesOwnAddressOrOverflows := by
  refine ⟨selects_call, fun s nnn => ?_⟩
  obtain ⟨t, ht, hsp, htsp, hframe, hstack⟩ | ⟨he, hsp⟩ := s.push_cases s.pc
  · refine ⟨fun _ => ⟨t.jumpTo (nnn.setWidth 16), by rw [exec_call, ht]; rfl, htsp, ?_, fun k hk => ?_, rfl, ?_, ?_⟩,
      fun hfull => absurd hfull (by omega)⟩
    · have hnew := hstack ⟨s.sp.val, hsp⟩
      rw [if_pos rfl] at hnew
      rw [State.jumpTo_eq, State.setPc_stack, Vector.getElem?_eq_getElem hsp, hnew]
    · have hold := hstack k
      rw [if_neg hk] at hold
      exact hold
    · rw [hframe]
      rfl
    · exact sameMemory_of_eq (congrArg State.mem hframe :) (congrArg State.config hframe :)
  · refine ⟨fun hroom => absurd hsp (by omega), fun _ => ?_⟩
    rw [exec_call, he, finish_eq_raised]
    rfl

/-! ### Skips and jumps -/

/-- A skip on a condition, as the one write of pc. -/
theorem State.skipIf_of_iff (s : State) {b : Bool} {p : Prop} [Decidable p] (h : b = true ↔ p) :
    s.skipIf b = { s with pc := if p then s.pc + 2 else s.pc } := by
  rw [State.skipIf_eq, State.setPc]
  simp only [h]

theorem exec_seImm (x : Reg) (nn : Byte) (s : State) :
    exec (.seImm x nn) s = .next (s.skipIf (s.getV x == nn)) := rfl

theorem exec_sneImm (x : Reg) (nn : Byte) (s : State) :
    exec (.sneImm x nn) s = .next (s.skipIf (s.getV x != nn)) := rfl

theorem exec_seReg (x y : Reg) (s : State) :
    exec (.seReg x y) s = .next (s.skipIf (s.getV x == s.getV y)) := rfl

theorem exec_sneReg (x y : Reg) (s : State) :
    exec (.sneReg x y) s = .next (s.skipIf (s.getV x != s.getV y)) := rfl

theorem byte_beq_iff (a b : Byte) : (a == b) = true ↔ a.toNat = b.toNat := by
  rw [beq_iff_eq, BitVec.toNat_inj]

theorem byte_bne_iff (a b : Byte) : (a != b) = true ↔ a.toNat ≠ b.toNat := by
  rw [bne_iff_ne, ne_eq, ne_eq, BitVec.toNat_inj]

/-- Settles O27: the four skips compare bytes as the numbers they are. -/
theorem skipsCompareOperands : Obligations.SkipsCompareOperands := by
  refine ⟨selects_seImm, selects_sneImm, selects_seReg, selects_sneReg, fun s x y nn => ⟨?_, ?_, ?_, ?_⟩⟩
  · rw [exec_seImm, s.skipIf_of_iff (byte_beq_iff _ _)]
  · rw [exec_sneImm, s.skipIf_of_iff (byte_bne_iff _ _)]
  · rw [exec_seReg, s.skipIf_of_iff (byte_beq_iff _ _)]
  · rw [exec_sneReg, s.skipIf_of_iff (byte_bne_iff _ _)]

theorem exec_jpOff (nnn : Addr) (x : Reg) (s : State) :
    exec (.jpOff nnn x) s = .next (s.jumpTo (nnn.setWidth 16 + (s.jumpOffset x).setWidth 16)) := rfl

/-- An address and a byte add without a wrap in 16 bits. -/
theorem jumpTarget_toNat (nnn : Addr) (v : Byte) : (nnn.setWidth 16 + v.setWidth 16).toNat = nnn.toNat + v.toNat := by
  have hnnn := nnn.isLt
  have hv := v.isLt
  rw [BitVec.toNat_add, addr_setWidth_toNat, BitVec.toNat_setWidth_of_le (by decide)]
  omega

/-- Settles O28: the target is nnn plus the mode's register, which 16 bits hold. -/
theorem bnnnAddsSelectedRegister : Obligations.BnnnAddsSelectedRegister := by
  refine ⟨selects_jpOff, fun s nnn x => ⟨_, exec_jpOff nnn x s, fun hmode => ?_, fun hmode => ?_, rfl, fun _ => rfl⟩⟩
  · rw [State.jumpTo_pc_add_two, jumpTarget_toNat, State.jumpOffset, hmode, if_neg Bool.false_ne_true]
  · rw [State.jumpTo_pc_add_two, jumpTarget_toNat, State.jumpOffset, hmode, if_pos rfl]

/-! ### Logic, carry and shifts -/

theorem exec_orReg (x y : Reg) (s : State) : exec (.orReg x y) s = .next (s.setV x (s.getV x ||| s.getV y)) := rfl

theorem exec_andReg (x y : Reg) (s : State) : exec (.andReg x y) s = .next (s.setV x (s.getV x &&& s.getV y)) := rfl

theorem exec_xorReg (x y : Reg) (s : State) : exec (.xorReg x y) s = .next (s.setV x (s.getV x ^^^ s.getV y)) := rfl

/-- Settles O32: each is one write of V[x]. -/
theorem logicLeavesFlag : Obligations.LogicLeavesFlag := by
  refine ⟨selects_orReg, selects_andReg, selects_xorReg, fun s x y =>
    ⟨⟨_, exec_orReg x y s, fun k => ?_, s.setV_sameRegsExcept x _, s.setV_frame x _, s.setV_sameMemory x _⟩,
      ⟨_, exec_andReg x y s, fun k => ?_, s.setV_sameRegsExcept x _, s.setV_frame x _, s.setV_sameMemory x _⟩,
      ⟨_, exec_xorReg x y s, fun k => ?_, s.setV_sameRegsExcept x _, s.setV_frame x _, s.setV_sameMemory x _⟩⟩⟩
  · rw [State.getV_setV_same, BitVec.getLsbD_or]
  · rw [State.getV_setV_same, BitVec.getLsbD_and]
  · rw [State.getV_setV_same, BitVec.getLsbD_xor]

theorem exec_addReg (x y : Reg) (s : State) : exec (.addReg x y) s =
    .next (s.setResultThenFlag x (s.getV x + s.getV y) (carryFlag (s.getV x) (s.getV y))) := rfl

theorem exec_shr (x y : Reg) (s : State) : exec (.shr x y) s =
    .next (s.setResultThenFlag x (s.shiftSource x y >>> 1) (shiftRightFlag (s.shiftSource x y))) := rfl

theorem exec_shl (x y : Reg) (s : State) : exec (.shl x y) s =
    .next (s.setResultThenFlag x (s.shiftSource x y <<< 1) (shiftLeftFlag (s.shiftSource x y))) := rfl

/-- The wrapped sum is below an operand exactly when the sum passes 255. -/
theorem carryFlag_eq_ite (a b : Byte) : carryFlag a b = if 255 < a.toNat + b.toNat then 1 else 0 := by
  have hwrap : (a + b).toNat < a.toNat ↔ 255 < a.toNat + b.toNat := by
    have ha := a.isLt
    have hb := b.isLt
    rw [BitVec.toNat_add]
    omega
  simp only [carryFlag, flagByte, decide_eq_true_eq, hwrap]

/-- Settles O33: the sum, then the carry as the flag. -/
theorem addRegSetsCarry : Obligations.AddRegSetsCarry := by
  refine ⟨selects_addReg, fun s x y => ⟨_, exec_addReg x y s, fun hx => ?_, ?_, s.setResultThenFlag_sameRegsExcept x _ _,
    s.setResultThenFlag_frame x _ _, s.setResultThenFlag_sameMemory x _ _⟩⟩
  · rw [s.getV_setResultThenFlag_of_ne _ _ hx, BitVec.toNat_add]
  · rw [s.getV_setResultThenFlag_VF, carryFlag_eq_ite]

theorem shiftRight_toNat (v : Byte) : (v >>> 1).toNat = v.toNat / 2 := by
  rw [BitVec.toNat_ushiftRight, Nat.shiftRight_eq_div_pow]

theorem shiftLeft_toNat (v : Byte) : (v <<< 1).toNat = v.toNat * 2 % 256 := by
  rw [BitVec.toNat_shiftLeft, Nat.shiftLeft_eq]

theorem shiftRightFlag_toNat (v : Byte) : (shiftRightFlag v).toNat = v.toNat % 2 := by
  rw [shiftRightFlag, BitVec.toNat_and]
  exact Nat.and_one_is_mod v.toNat

theorem shiftLeftFlag_toNat (v : Byte) : (shiftLeftFlag v).toNat = v.toNat / 128 := by
  rw [shiftLeftFlag, BitVec.toNat_ushiftRight, Nat.shiftRight_eq_div_pow]

/-- Settles O36: the mode's register shifted, then the bit shifted out as the flag. -/
theorem shiftsSetShiftedOutBit : Obligations.ShiftsSetShiftedOutBit := by
  refine ⟨selects_shr, selects_shl, fun s x y v hv => ?_⟩
  have hsource : (s.shiftSource x y).toNat = v := hv.symm
  refine ⟨⟨_, exec_shr x y s, fun hx => ?_, ?_, s.setResultThenFlag_sameRegsExcept x _ _,
    s.setResultThenFlag_frame x _ _, s.setResultThenFlag_sameMemory x _ _⟩, ⟨_, exec_shl x y s, fun hx => ?_, ?_,
    s.setResultThenFlag_sameRegsExcept x _ _, s.setResultThenFlag_frame x _ _, s.setResultThenFlag_sameMemory x _ _⟩⟩
  · rw [s.getV_setResultThenFlag_of_ne _ _ hx, shiftRight_toNat, hsource]
  · rw [s.getV_setResultThenFlag_VF, shiftRightFlag_toNat, hsource]
  · rw [s.getV_setResultThenFlag_of_ne _ _ hx, shiftLeft_toNat, hsource]
  · rw [s.getV_setResultThenFlag_VF, shiftLeftFlag_toNat, hsource]

/-! ### The index register and memory -/

/-- Settles O18: one access on each side of the bound 0xFFF. -/
theorem writeThenRead : Obligations.WriteThenRead := by
  refine fun s a v => ⟨fun ha => ⟨s.writeByte a v, s.memWrite_ok v ha, ?_, fun b hne hb => ?_, rfl⟩,
    fun ha => ⟨s.memWrite_error v ha, s.memRead_error ha⟩⟩
  · rw [State.memRead_ok _ ha, State.readByte_writeByte, if_pos rfl]
  · rw [State.memRead_ok _ hb, State.memRead_ok _ hb, State.readByte_writeByte, if_neg hne]

theorem exec_addI (x : Reg) (s : State) : exec (.addI x) s = .next (s.setI (s.I + (s.getV x).setWidth 16)) := rfl

/-- Settles O39: the next state is the one write of the wrapped sum to I. -/
theorem addIWrapsUnmasked : Obligations.AddIWrapsUnmasked := by
  refine ⟨selects_addI, fun s x => ⟨_, exec_addI x s, ?_, s.setI_frame _, s.setI_sameMemory _⟩⟩
  rw [State.setI_I, BitVec.toNat_add, BitVec.toNat_setWidth_of_le (by decide)]

theorem State.effAddr_inj {s : State} {j k : Nat} (h : s.effAddr j = s.effAddr k) : j = k :=
  Nat.add_left_cancel h

theorem State.effAddr_mono (s : State) {j k : Nat} (h : j ≤ k) : s.effAddr j ≤ s.effAddr k :=
  Nat.add_le_add_left h _

/-- The writes go to the effective addresses 0 to n from I. -/
def State.WritesThrough (s : State) (n : Nat) (ws : List (Nat × Byte)) : Prop :=
  ∀ w ∈ ws, ∃ k, k ≤ n ∧ w.1 = s.effAddr k

theorem State.WritesThrough.in_memory {s : State} {n : Nat} {ws : List (Nat × Byte)} (h : s.WritesThrough n ws)
    (hfits : s.effAddr n ≤ 0xFFF) : ∀ w ∈ ws, w.1 ≤ 0xFFF := by
  intro w hw
  obtain ⟨k, hk, heq⟩ := h w hw
  rw [heq]
  exact (s.effAddr_mono hk).trans hfits

theorem State.WritesThrough.not_mem {s : State} {n : Nat} {ws : List (Nat × Byte)} (h : s.WritesThrough n ws) {a : Nat}
    (ha : a < s.effAddr 0 ∨ s.effAddr n < a) : a ∉ ws.map Prod.fst := by
  intro hmem
  obtain ⟨w, hw, rfl⟩ := List.mem_map.mp hmem
  obtain ⟨k, hk, heq⟩ := h w hw
  have hlo := s.effAddr_mono (Nat.zero_le k)
  have hhi := s.effAddr_mono hk
  omega

theorem State.bcdWrites_through (s : State) (x : Reg) : s.WritesThrough 2 (s.bcdWrites x) :=
  fun _ hw => bcdWrites_address hw

theorem State.storeWrites_through (s : State) (x : Reg) : s.WritesThrough x.val (s.storeWrites x) := by
  intro w hw
  obtain ⟨i, hi, rfl⟩ := storeWrites_address hw
  exact ⟨i.val, hi, rfl⟩

theorem hundredsDigit_toNat (v : Byte) : (hundredsDigit v).toNat = v.toNat / 100 := by
  have hv := v.isLt
  rw [hundredsDigit, BitVec.toNat_ofNat]
  omega

theorem tensDigit_toNat (v : Byte) : (tensDigit v).toNat = v.toNat / 10 % 10 := by
  rw [tensDigit, BitVec.toNat_ofNat]
  omega

theorem onesDigit_toNat (v : Byte) : (onesDigit v).toNat = v.toNat % 10 := by
  rw [onesDigit, BitVec.toNat_ofNat]
  omega

/-- The three digits go to three addresses. -/
theorem State.bcdWrites_nodup (s : State) (x : Reg) : ((s.bcdWrites x).map Prod.fst).Nodup := by
  simp [State.bcdWrites, State.effAddr]

/-- FX33 faults at the first of its three addresses that is out of memory. -/
theorem State.bcdWrites_error (s : State) (x : Reg) {k : Nat} (hk : k ≤ 2) (hbad : 0xFFF < s.effAddr k)
    (hbefore : ∀ j, j < k → s.effAddr j ≤ 0xFFF) :
    State.memWriteAll (s.bcdWrites x) s = .error (.memoryOutOfRange (s.effAddr k)) := by
  obtain rfl | rfl | rfl : k = 0 ∨ k = 1 ∨ k = 2 := by omega
  · exact State.memWriteAll_error [] _ (s.effAddr 0) _ s (by simp) hbad
  · have h0 := hbefore 0 (by omega)
    exact State.memWriteAll_error [(s.effAddr 0, _)] _ (s.effAddr 1) _ s (by simpa using h0) hbad
  · have h0 := hbefore 0 (by omega)
    have h1 := hbefore 1 (by omega)
    exact State.memWriteAll_error [(s.effAddr 0, _), (s.effAddr 1, _)] _ (s.effAddr 2) _ s (by simpa using ⟨h0, h1⟩) hbad

/-- Settles O41: three writes that fit, or the first that does not. -/
theorem ldBStoresDigits : Obligations.LdBStoresDigits := by
  refine ⟨selects_ldB, fun s x => ⟨fun hfits => ?_, fun k hk hbad hbefore => ?_⟩⟩
  · obtain ⟨t, ht, hframe, hkeep, hnew, -⟩ :=
      State.memWriteAll_ok (s.bcdWrites x) s ((s.bcdWrites_through x).in_memory hfits)
    have hnew := hnew (s.bcdWrites_nodup x)
    refine ⟨t, by rw [exec_ldB, ht, finish], ?_, ?_, ?_,
      fun a ha => hkeep a ((s.bcdWrites_through x).not_mem ha), hframe⟩
    · rw [hnew (s.effAddr 0, hundredsDigit (s.getV x)) (by simp [State.bcdWrites]), hundredsDigit_toNat]
    · rw [hnew (s.effAddr 1, tensDigit (s.getV x)) (by simp [State.bcdWrites]), tensDigit_toNat]
    · rw [hnew (s.effAddr 2, onesDigit (s.getV x)) (by simp [State.bcdWrites]), onesDigit_toNat]
  · rw [exec_ldB, finish_eq_raised, s.bcdWrites_error x hk hbad hbefore]

/-! ### Block transfers -/

theorem regsThrough_split {x i : Reg} (h : i.val ≤ x.val) :
    ∃ pre post, regsThrough x = pre ++ i :: post ∧ ∀ r ∈ pre, r < i :=
  exists_split_of_rising ((List.pairwise_lt_finRange 16).filter _) ((mem_regsThrough x i).mpr h)

theorem State.bumpI_I_of_false {s : State} (x : Reg) (h : s.loadStoreIncrementsI = false) : (s.bumpI x).I = s.I := by
  rw [State.bumpI_eq, State.setI_I, h, if_neg Bool.false_ne_true]

theorem State.bumpI_I_of_true {s : State} (x : Reg) (h : s.loadStoreIncrementsI = true) :
    (s.bumpI x).I.toNat = (s.I.toNat + x.val) % 65536 := by
  rw [State.bumpI_eq, State.setI_I, h, if_pos rfl, BitVec.toNat_add, BitVec.toNat_ofNat]
  omega

theorem State.bumpI_readByte (s : State) (x : Reg) (a : Nat) : (s.bumpI x).readByte a = s.readByte a := by
  rw [State.bumpI_eq, State.setI_readByte]

theorem State.bumpI_getV (s : State) (x r : Reg) : (s.bumpI x).getV r = s.getV r := by
  rw [State.bumpI_eq, State.setI_getV]

theorem State.storeWrites_nodup (s : State) (x : Reg) : ((s.storeWrites x).map Prod.fst).Nodup := by
  rw [State.storeWrites, List.map_map]
  exact (regsThrough_nodup x).map fun i j h => Fin.ext (State.effAddr_inj h)

/-- Settles O42: the writes of V0..Vx when they fit, or the first that does not. -/
theorem storeRegsWritesBlock : Obligations.StoreRegsWritesBlock := by
  refine ⟨selects_storeRegs, fun s x => ⟨fun hfits => ?_, fun k hk hbad hbefore => ?_⟩⟩
  · obtain ⟨t, ht, hframe, hkeep, hnew, -⟩ :=
      State.memWriteAll_ok (s.storeWrites x) s ((s.storeWrites_through x).in_memory hfits)
    have hI : t.I = s.I := (congrArg State.I hframe :)
    have hmode : t.loadStoreIncrementsI = s.loadStoreIncrementsI := (congrArg State.loadStoreIncrementsI hframe :)
    refine ⟨t.bumpI x, by rw [exec_storeRegs, ht]; rfl, fun i hi => ?_, fun a ha => ?_, fun hoff => ?_, fun hon => ?_, ?_⟩
    · rw [State.bumpI_readByte]
      exact hnew (s.storeWrites_nodup x) (s.effAddr i.val, s.getV i)
        (List.mem_map.mpr ⟨i, (mem_regsThrough x i).mpr hi, rfl⟩)
    · rw [State.bumpI_readByte]
      exact hkeep a ((s.storeWrites_through x).not_mem ha)
    · rw [State.bumpI_I_of_false x (hmode.trans hoff), hI]
    · rw [State.bumpI_I_of_true x (hmode.trans hon), hI]
    · rw [State.bumpI_eq, hframe]
      rfl
  · obtain ⟨pre, post, hsplit, hpre⟩ := regsThrough_split (x := x) (i := ⟨k, by omega⟩) hk
    have herror : State.memWriteAll (s.storeWrites x) s = .error (.memoryOutOfRange (s.effAddr k)) := by
      rw [State.storeWrites, hsplit, List.map_append, List.map_cons]
      refine State.memWriteAll_error _ _ _ _ s (fun w hw => ?_) hbad
      obtain ⟨r, hr, rfl⟩ := List.mem_map.mp hw
      exact hbefore r.val (hpre r hr)
    rw [exec_storeRegs, herror, finish_eq_raised]
    rfl

/-- Settles O43: the loads of V0..Vx when they fit, or the first that does not. -/
theorem loadRegsReadsBlock : Obligations.LoadRegsReadsBlock := by
  refine ⟨selects_loadRegs, fun s x => ⟨fun hfits => ?_, fun k hk hbad hbefore => ?_⟩⟩
  · have hin : ∀ r ∈ regsThrough x, s.effAddr 0 + r.val ≤ 0xFFF := fun r hr =>
      (s.effAddr_mono ((mem_regsThrough x r).mp hr)).trans hfits
    obtain ⟨t, ht, hframe, hnew⟩ := State.loadRegsFrom_ok (s.effAddr 0) (regsThrough x) s hin
    have hI : t.I = s.I := (congrArg State.I hframe :)
    have hmode : t.loadStoreIncrementsI = s.loadStoreIncrementsI := (congrArg State.loadStoreIncrementsI hframe :)
    refine ⟨t.bumpI x, by rw [exec_loadRegs, ht]; rfl, fun i hi => ?_, fun i hi => ?_, fun hoff => ?_, fun hon => ?_, ?_,
      fun a => ?_⟩
    · rw [State.bumpI_getV, hnew, if_pos ((mem_regsThrough x i).mpr hi)]
      rfl
    · rw [State.bumpI_getV, hnew, if_neg]
      rw [mem_regsThrough]
      omega
    · rw [State.bumpI_I_of_false x (hmode.trans hoff), hI]
    · rw [State.bumpI_I_of_true x (hmode.trans hon), hI]
    · rw [State.bumpI_eq, hframe]
      rfl
    · rw [State.bumpI_readByte]
      exact sameMemory_of_eq (congrArg State.mem hframe :) (congrArg State.config hframe :) a
  · obtain ⟨pre, post, hsplit, hpre⟩ := regsThrough_split (x := x) (i := ⟨k, by omega⟩) hk
    have herror := State.loadRegsFrom_error (s.effAddr 0) pre post ⟨k, by omega⟩ s
      (fun r hr => hbefore r.val (hpre r hr)) hbad
    rw [exec_loadRegs, hsplit, herror, finish_eq_raised]
    rfl

/-! ### Keys and timers -/

theorem exec_ldVxK_of_pressed {s : State} (x : Reg) (h : s.keyPressedThisTick = true) :
    exec (.ldVxK x) s = .next (s.setV x (BitVec.ofNat 8 s.lastKey.val)) := by
  rw [exec_ldVxK, h, if_pos rfl]

/-- Settles O46: one write of V[x] with a press, one of pc without. -/
theorem ldVxKWaitsForPress : Obligations.LdVxKWaitsForPress := by
  refine ⟨selects_ldVxK, fun s x => ⟨fun hpress => ⟨_, exec_ldVxK_of_pressed x hpress, ?_, s.setV_sameRegsExcept x _,
    s.setV_frame x _, s.setV_sameMemory x _⟩, fun hno => exec_ldVxK_of_not_pressed x hno⟩⟩
  rw [State.getV_setV_same, BitVec.toNat_ofNat]
  omega

theorem exec_ldDTVx (x : Reg) (s : State) : exec (.ldDTVx x) s = .next (s.setDT (s.getV x)) := rfl

theorem exec_ldSTVx (x : Reg) (s : State) : exec (.ldSTVx x) s = .next (s.setST (s.getV x)) := rfl

/-- A timer steps down to 0 and stays there. -/
theorem timerStep_toNat (v : Byte) : (timerStep v).toNat = v.toNat - 1 := by
  by_cases h : v = 0
  · rw [h, timerStep_zero]
    rfl
  · have hpos : v.toNat ≠ 0 := fun h0 => h (BitVec.eq_of_toNat_eq h0)
    rw [timerStep_of_ne_zero h, BitVec.toNat_sub]
    have hv := v.isLt
    simp
    omega

theorem State.soundOn_iff (s : State) : s.soundOn = true ↔ 0 < s.ST.toNat := by
  rw [State.soundOn, byte_bne_iff]
  exact Nat.pos_iff_ne_zero.symm

/-- Settles O47: one write of the timer, which the Tick's ending then steps. -/
theorem timerLoadsAreDecrementedOnce : Obligations.TimerLoadsAreDecrementedOnce := by
  refine ⟨selects_ldDTVx, selects_ldSTVx, fun s x => ⟨exec_ldDTVx x s, exec_ldSTVx x s, fun op cycleCounter hf =>
    ⟨fun hd => ⟨_, tick_of_execDecoded_next hf (by rw [hd, execDecoded, exec_ldDTVx]), ?_⟩,
      fun hd => ⟨_, tick_of_execDecoded_next hf (by rw [hd, execDecoded, exec_ldSTVx]), ?_, ?_⟩⟩⟩⟩
  · rw [State.endTick_DT, timerStep_toNat]
    rfl
  · rw [State.endTick_ST, timerStep_toNat]
    rfl
  · rw [State.soundOn_iff, State.endTick_ST, timerStep_toNat, State.setST_ST, State.setSeed_getV]
    omega

end Sys2Proof.Machine
